-- ==== Sys2Proof/Word.lean ====
section
/-! DEFINITION. The word types of the UM core: platters, bytes and the two encoded field types. -/

namespace Sys2Proof

/-- A register value or platter: 32 bits, unsigned (`00_scope.md` R6 to R8). -/
abbrev Word := BitVec 32

/-- One byte of the I/O boundary or of a binary scroll (`45_io.md` R184, `70_reset_and_hazards.md` R244). -/
abbrev Byte := BitVec 8

/-- A 3-bit register field; every value names a register (`10_state.md` R21). -/
abbrev RegIdx := BitVec 3

/-- The 25-bit immediate of the Orthography format (`30_encoding.md` R93). -/
abbrev Imm := BitVec 25

end Sys2Proof
end

