-- ==== Sys2Proof/Syntax.lean ====
section
/-! DEFINITION. The instructions: one constructor per row of `spec/opcode_table.json`. -/

namespace Sys2Proof

/-- One decoded platter. A regular instruction carries its three register fields whether or not the
operation uses them, as the decoder extracts them (`30_encoding.md` R99); the fields an operation ignores
are R96's. -/
inductive Instr where
  /-- CMOV, Conditional Move, opcode 0 (R140). -/
  | cmov (a b c : RegIdx)
  /-- AIDX, Array Index, opcode 1 (R150). -/
  | aidx (a b c : RegIdx)
  /-- AMEND, Array Amendment, opcode 2 (R151). -/
  | amend (a b c : RegIdx)
  /-- ADD, Addition, opcode 3 (R160). -/
  | add (a b c : RegIdx)
  /-- MUL, Multiplication, opcode 4 (R161). -/
  | mul (a b c : RegIdx)
  /-- DIV, Division, opcode 5 (R162). -/
  | div (a b c : RegIdx)
  /-- NAND, Not-And, opcode 6 (R163). -/
  | nand (a b c : RegIdx)
  /-- HALT, Halt, opcode 7 (R190); ignores all three fields. -/
  | halt (a b c : RegIdx)
  /-- ALLOC, Allocation, opcode 8 (R170); ignores field A. -/
  | alloc (a b c : RegIdx)
  /-- ABANDON, Abandonment, opcode 9 (R171); ignores fields A and B. -/
  | abandon (a b c : RegIdx)
  /-- OUT, Output, opcode 10 (R180); ignores fields A and B. -/
  | out (a b c : RegIdx)
  /-- IN, Input, opcode 11 (R181); ignores fields A and B. -/
  | inp (a b c : RegIdx)
  /-- LOADPROG, Load Program, opcode 12 (R191); ignores field A. -/
  | loadprog (a b c : RegIdx)
  /-- ORTH, Orthography, opcode 13 (R141). -/
  | orth (a : RegIdx) (value : Imm)
  /-- ILLEGAL14: a platter with opcode 14; its low 28 bits have no meaning (R97). -/
  | illegal14
  /-- ILLEGAL15: a platter with opcode 15; its low 28 bits have no meaning (R97). -/
  | illegal15
deriving DecidableEq, Repr

end Sys2Proof
end

