-- ==== Sys2Proof/WellFormed.lean ====
section
/-! DEFINITION. The checks on what the machine is handed: instructions, programs and scrolls. A register
field and the immediate need none: every value of their types is legal (`10_state.md` R21, `30_encoding.md` R93). -/

namespace Sys2Proof

/-- An instruction is well-formed when it is one of the 14 defined operations (`30_encoding.md` R96, R97). -/
def Instr.wellFormed : Instr → Bool
  | .cmov _ _ _ => true
  | .aidx _ _ _ => true
  | .amend _ _ _ => true
  | .add _ _ _ => true
  | .mul _ _ _ => true
  | .div _ _ _ => true
  | .nand _ _ _ => true
  | .halt _ _ _ => true
  | .alloc _ _ _ => true
  | .abandon _ _ _ => true
  | .out _ _ _ => true
  | .inp _ _ _ => true
  | .loadprog _ _ _ => true
  | .orth _ _ => true
  | .illegal14 => false
  | .illegal15 => false

/-- PROGRAM has at most 2^32 - 1 words; the empty program is legal (`70_reset_and_hazards.md` R241, R243). -/
def programLengthOk (n : Nat) : Bool := n ≤ 4294967295

/-- A binary scroll is whole 4-byte words (`70_reset_and_hazards.md` R244, R246). -/
def binaryScrollOk (bytes : List Byte) : Bool := bytes.length % 4 == 0

/-- A line of a text scroll is exactly 32 characters, each `0` or `1` (`70_reset_and_hazards.md` R245, R246). -/
def textLineOk (line : List Char) : Bool :=
  line.length == 32 && line.all (fun ch => ch == '0' || ch == '1')

end Sys2Proof
end

