-- ==== Sys2Proof/Decode.lean ====
section
/-! DEFINITION. The decoder (`30_encoding.md` R99), total on platters, and the encoder (R100); the byte
order of a platter in a binary scroll (`70_reset_and_hazards.md` R244). -/

namespace Sys2Proof

/-- `op = w[31:28]` (R91). -/
def opField (w : Word) : BitVec 4 := w.extractLsb' 28 4

/-- `A = w[8:6]` of the regular format (R92). -/
def fieldA (w : Word) : RegIdx := w.extractLsb' 6 3

/-- `B = w[5:3]` (R92). -/
def fieldB (w : Word) : RegIdx := w.extractLsb' 3 3

/-- `C = w[2:0]` (R92). -/
def fieldC (w : Word) : RegIdx := w.extractLsb' 0 3

/-- `A = w[27:25]` of the Orthography format (R93). -/
def orthFieldA (w : Word) : RegIdx := w.extractLsb' 25 3

/-- `value = w[24:0]` (R93). -/
def orthValue (w : Word) : Imm := w.extractLsb' 0 25

/-- The decoder (R99). Bits 27:9 of a regular platter are not looked at (R95, log entry 10); opcodes 14 and 15
are the two illegal rows (R97). -/
def decode (w : Word) : Instr :=
  match (opField w).toNat with
  | 0 => .cmov (fieldA w) (fieldB w) (fieldC w)
  | 1 => .aidx (fieldA w) (fieldB w) (fieldC w)
  | 2 => .amend (fieldA w) (fieldB w) (fieldC w)
  | 3 => .add (fieldA w) (fieldB w) (fieldC w)
  | 4 => .mul (fieldA w) (fieldB w) (fieldC w)
  | 5 => .div (fieldA w) (fieldB w) (fieldC w)
  | 6 => .nand (fieldA w) (fieldB w) (fieldC w)
  | 7 => .halt (fieldA w) (fieldB w) (fieldC w)
  | 8 => .alloc (fieldA w) (fieldB w) (fieldC w)
  | 9 => .abandon (fieldA w) (fieldB w) (fieldC w)
  | 10 => .out (fieldA w) (fieldB w) (fieldC w)
  | 11 => .inp (fieldA w) (fieldB w) (fieldC w)
  | 12 => .loadprog (fieldA w) (fieldB w) (fieldC w)
  | 13 => .orth (orthFieldA w) (orthValue w)
  | 14 => .illegal14
  | _ => .illegal15

/-- The opcode of an instruction (R96, R97). -/
def Instr.opcode : Instr → BitVec 4
  | .cmov _ _ _ => 0
  | .aidx _ _ _ => 1
  | .amend _ _ _ => 2
  | .add _ _ _ => 3
  | .mul _ _ _ => 4
  | .div _ _ _ => 5
  | .nand _ _ _ => 6
  | .halt _ _ _ => 7
  | .alloc _ _ _ => 8
  | .abandon _ _ _ => 9
  | .out _ _ _ => 10
  | .inp _ _ _ => 11
  | .loadprog _ _ _ => 12
  | .orth _ _ => 13
  | .illegal14 => 14
  | .illegal15 => 15

/-- `EncRegular` (R100), with the ignored bits 27:9 zero. -/
def encRegular (op : BitVec 4) (a b c : RegIdx) : Word := op ++ (0 : BitVec 19) ++ a ++ b ++ c

/-- `EncOrth` (R100). -/
def encOrth (a : RegIdx) (value : Imm) : Word := (13 : BitVec 4) ++ a ++ value

/-- A platter with a given opcode and all other bits zero; the illegal rows' `match` value in the opcode table. -/
def encBare (op : BitVec 4) : Word := op ++ (0 : BitVec 28)

/-- The encoder: the canonical platter of an instruction (R96, R100). -/
def encode : Instr → Word
  | .cmov a b c => encRegular 0 a b c
  | .aidx a b c => encRegular 1 a b c
  | .amend a b c => encRegular 2 a b c
  | .add a b c => encRegular 3 a b c
  | .mul a b c => encRegular 4 a b c
  | .div a b c => encRegular 5 a b c
  | .nand a b c => encRegular 6 a b c
  | .halt a b c => encRegular 7 a b c
  | .alloc a b c => encRegular 8 a b c
  | .abandon a b c => encRegular 9 a b c
  | .out a b c => encRegular 10 a b c
  | .inp a b c => encRegular 11 a b c
  | .loadprog a b c => encRegular 12 a b c
  | .orth a value => encOrth a value
  | .illegal14 => encBare 14
  | .illegal15 => encBare 15

/-- Four bytes, the first the most significant (`70_reset_and_hazards.md` R244). -/
def wordOfBytes (b0 b1 b2 b3 : Byte) : Word := b0 ++ b1 ++ b2 ++ b3

/-- The four bytes of a platter in the order of a binary scroll (`70_reset_and_hazards.md` R244). -/
def bytesOfWord (w : Word) : List Byte :=
  [w.extractLsb' 24 8, w.extractLsb' 16 8, w.extractLsb' 8 8, w.extractLsb' 0 8]

/-- Why bytes of a binary scroll do not give an instruction. -/
inductive DecodeRefusal where
  /-- Raised by `decodeBytes` when fewer than four bytes are left: a malformed scroll yields no program
  (`70_reset_and_hazards.md` R246). Safe. -/
  | truncatedWord
deriving DecidableEq, Repr

/-- Decodes the first platter of a binary scroll and answers the bytes after it. Total on any bytes. -/
def decodeBytes : List Byte → Except DecodeRefusal (Instr × List Byte)
  | b0 :: b1 :: b2 :: b3 :: rest => .ok (decode (wordOfBytes b0 b1 b2 b3), rest)
  | _ => .error .truncatedWord

/-- The instruction the decoder reads from a platter whose bits are `w`, numbered as
`spec/opcode_table.json` numbers them: laid out big-endian and given to `decodeBytes`. -/
def decodeTableWord (nbits w : Nat) : Option Instr :=
  if nbits ≤ 32 then
    match decodeBytes (bytesOfWord (BitVec.ofNat 32 (w % 2 ^ nbits))) with
    | .ok (i, _) => some i
    | .error _ => none
  else none

end Sys2Proof
end

