-- ==== Sys2Proof/Config.lean ====
section
/-! DEFINITION. What the spec leaves to the implementation: the identifier bound, the parameter
HEAP_WORDS_MAX, the infinite INPUTs, and the free value of the diagnostic. -/

namespace Sys2Proof

/-- ID_MAX, the largest array identifier (`00_scope.md` R6). -/
def Config.idMax : Nat := 4294967295

/-- The OPEN parameters of the machine that are numbers (`00_scope.md` R6). `heapWordsMax` is
HEAP_WORDS_MAX (`20_memory.md` R71): `none` is "unbounded", the spec's default. It stands in State so
that a statement about every state holds for every value (log entry 5). -/
structure Params where
  heapWordsMax : Option Nat
deriving DecidableEq, Repr

/-- HEAP_WORDS_MAX at its default, unbounded. DESIGN CHOICE (the spec's own D10), unsafe: log entry 5. -/
def Config.defaultParams : Params := { heapWordsMax := none }

/-- The part of the fault diagnostic that describes the fetched platter (`10_state.md` R30): the
platter, its opcode, the decoded register fields, and the contents of the registers they name. -/
structure InsnRecord where
  word   : Word
  opcode : BitVec 4
  a      : RegIdx
  b      : RegIdx
  c      : RegIdx
  xa     : Word
  xb     : Word
  xc     : Word
deriving DecidableEq, Repr, Inhabited

/-- FREE VALUE: what the instruction part of `diag` holds when no platter was fetched, "any value" by
`93_implementation_defined.md` U9. Applied to the counter `State.openCount`. It has no body, so nothing can
be proved of what it is (log entry 12). -/
opaque Config.openInsnRecord : Nat → InsnRecord

/-- FREE VALUE: byte `k` of infinite INPUT number `i`, as `Config.endlessInput i k`. INPUT may be "any finite or infinite
sequence of bytes" (`00_scope.md` R6, `45_io.md` R186). It has no body, so whatever is proved of a run with such an INPUT holds
for every infinite sequence of bytes; the number tells several INPUTs apart (log entry 7). -/
opaque Config.endlessInput : Nat → Nat → Byte

end Sys2Proof
end

