-- ==== Sys2Proof/Machine/State.lean ====
section
/-! DEFINITION. The state of the machine as plain data, the reasons a step can stop, and the state after
reset. INVENTORY.md, "State", lists every field with its rule. -/

namespace Sys2Proof.Machine

open Sys2Proof

/-- The run status (`10_state.md` R29). -/
inductive Status where
  | running
  | halted
  | faulted
deriving DecidableEq, Repr

/-- The six fault kinds (`10_state.md` R31, `60_exceptions.md` R200). -/
inductive FaultKind where
  | decodeError
  | outOfBoundsAccess
  | divisionByZero
  | allocationExhausted
  | ioError
  | undefinedBehavior
deriving DecidableEq, Repr

/-- The fault diagnostic (`10_state.md` R30). `insn` holds the word, opcode, A, B, C, xA, xB, xC. -/
structure Diag where
  kind    : FaultKind
  pc      : Word
  hasInsn : Bool
  insn    : InsnRecord
deriving DecidableEq, Repr

/-- One array of the heap (`10_state.md` R34): its length, and its platters that are not 0 as pairs
(offset, platter), offsets strictly rising and below the length. A platter not listed is 0, as an array is
created (`20_memory.md` R67); log entries 1 and 2. -/
structure PlatterArray where
  len   : Word
  cells : List (Nat × Word)
deriving DecidableEq, Repr

/-- The heap (`10_state.md` R34, `20_memory.md` R60): pairs (identifier, array), identifiers strictly
rising. An identifier not listed is not allocated. -/
structure Memory where
  arrays : List (Nat × PlatterArray)
deriving DecidableEq, Repr

/-- One answer of the input boundary (`45_io.md` R183). -/
inductive InputAnswer where
  | byte (b : Byte)
  | endOfInput
  | failed
deriving DecidableEq, Repr

/-- What the input boundary does after its listed answers: the source is exhausted, or the host never
answers again (`45_io.md` R185), or bytes come without end (`00_scope.md` R6, INPUT): those of infinite INPUT number
`stream` from byte `next` on, `Config.endlessInput`. -/
inductive InputTail where
  | exhausted
  | silent
  | endless (stream next : Nat)
deriving DecidableEq, Repr

/-- The input source (`10_state.md` R38(b)): the answers to the next requests, in order, and what comes
after them (log entry 7). -/
structure InputSource where
  answers : List InputAnswer
  tail    : InputTail
deriving DecidableEq, Repr

/-- One answer of the output boundary (`45_io.md` R182). -/
inductive OutputAnswer where
  | accepted
  | failed
deriving DecidableEq, Repr

/-- What `IoRead()` gives (`45_io.md` R183), with the source that is left. -/
inductive ReadResult where
  | byte (b : Byte) (rest : InputSource)
  | endOfInput (rest : InputSource)
  | failed
  | waiting
deriving DecidableEq, Repr

/-- The whole state: EngineState with its diagnostic (`10_state.md` R20), the host-side state of R38, the
answers of the boundary and the parameters of the run (`00_scope.md` R6), and the model's own counter of
free values (log entry 14). -/
structure State where
  regs       : Vector Word 8
  pc         : Word
  status     : Status
  diag       : Diag
  mem        : Memory
  trace      : List Byte
  input      : InputSource
  outAnswers : List OutputAnswer
  params     : Params
  openCount  : Nat
deriving DecidableEq, Repr

/-- Why a step gives no next state: the machine is in a terminal status, in which "no step is possible"
(`10_state.md` R29, `40_execution_cycle.md` R128). Log entries 3 and 4. -/
inductive Fault where
  /-- Raised by `step` alone, when `status` is Halted: the run ended in success. Safe: the machine has no step there. -/
  | halted
  /-- Raised by `step` alone, when `status` is Faulted, with the kind that `diag` records. Safe: the machine has no step there. -/
  | faulted (kind : FaultKind)
deriving DecidableEq, Repr

/-- Why the model gives no meaning. -/
inductive Refusal where
  /-- Raised by an arm of `exec` for an instruction without a meaning; no arm of this model raises it. Safe. -/
  | notModelled (mnemonic : String)
deriving DecidableEq, Repr

/-- The three outcomes of a step, at this machine's types. -/
abbrev Result := Host.Outcome State Fault Refusal

/-- `diag` at reset, "unspecified, and unobservable" (`10_state.md` R30). DESIGN CHOICE, unsafe: log entry 13. -/
def resetDiag : Diag :=
  { kind := .decodeError, pc := 0, hasInsn := false,
    insn := { word := 0, opcode := 0, a := 0, b := 0, c := 0, xa := 0, xb := 0, xc := 0 } }

/-- The machine right after reset (`10_state.md` R40, `70_reset_and_hazards.md` R242) with the empty
PROGRAM, the empty input stream and an output boundary that accepts (log entries 6, 7, 9, 20). Reset with a
program is `State.load`. -/
def State.reset : State :=
  { regs := Vector.replicate 8 0, pc := 0, status := .running, diag := resetDiag,
    mem := { arrays := [(0, { len := 0, cells := [] })] },
    trace := [], input := { answers := [], tail := .exhausted }, outAnswers := [],
    params := Config.defaultParams, openCount := 0 }

end Sys2Proof.Machine
end

