-- ==== Sys2Proof/Machine/Ops.lean ====
section
/-! DEFINITION. The named operations over registers, finger, heap and I/O boundary, the fetch, and fault
entry as one shared operation. There is no return from a fault (`60_exceptions.md` R210). -/

namespace Sys2Proof.Machine

open Sys2Proof

/-! Sparse maps keyed by a natural number. -/

/-- The value at key `k`, if there is one. -/
def assocFind {α : Type} (k : Nat) : List (Nat × α) → Option α
  | [] => none
  | (j, v) :: rest => if j = k then some v else assocFind k rest

/-- Sets the value at key `k`, at its place in rising order. -/
def assocPut {α : Type} (k : Nat) (v : α) : List (Nat × α) → List (Nat × α)
  | [] => [(k, v)]
  | (j, u) :: rest =>
    if j < k then (j, u) :: assocPut k v rest
    else if j = k then (k, v) :: rest
    else (k, v) :: (j, u) :: rest

/-- Removes key `k`. -/
def assocErase {α : Type} (k : Nat) (l : List (Nat × α)) : List (Nat × α) :=
  l.filter (fun p => p.1 ≠ k)

/-- The keys rise strictly. -/
abbrev assocSorted {α : Type} (l : List (Nat × α)) : Prop := l.Pairwise (fun p q => p.1 < q.1)

/-! Arrays. -/

/-- The platter at an offset; 0 where nothing is listed (`20_memory.md` R63, R67). -/
def PlatterArray.get (p : PlatterArray) (off : Nat) : Word := (assocFind off p.cells).getD 0

/-- Sets the platter at an offset, keeping the canonical form; the length never changes (`10_state.md` R34). -/
def PlatterArray.set (p : PlatterArray) (off : Nat) (v : Word) : PlatterArray :=
  { p with cells := if v = 0 then assocErase off p.cells else assocPut off v p.cells }

/-- A new array, all platters 0 (`20_memory.md` R67). -/
def PlatterArray.zeroed (cap : Word) : PlatterArray := { len := cap, cells := [] }

/-- The canonical form of one array: offsets strictly rising and below the length, no platter 0 listed. -/
abbrev PlatterArray.wf (p : PlatterArray) : Prop :=
  assocSorted p.cells ∧ ∀ e ∈ p.cells, e.1 < p.len.toNat ∧ e.2 ≠ 0

/-! The heap and its arbiter (`20_memory.md` section 2). -/

/-- The canonical form of the heap: identifiers strictly rising, at most ID_MAX, every array canonical. -/
abbrev Memory.wf (m : Memory) : Prop :=
  assocSorted m.arrays ∧ ∀ e ∈ m.arrays, e.1 ≤ Config.idMax ∧ e.2.wf

/-- The array an identifier names, if any (`10_state.md` R34). -/
def Memory.arrayAt (m : Memory) (id : Word) : Option PlatterArray := assocFind id.toNat m.arrays

/-- `Allocated(id)` (`00_scope.md` R9). -/
def Memory.allocated (m : Memory) (id : Word) : Bool := (m.arrayAt id).isSome

/-- `Len(id)`, defined when `id` is allocated (`00_scope.md` R9). -/
def Memory.lenOf (m : Memory) (id : Word) : Option Word := (m.arrayAt id).map PlatterArray.len

/-- `MemRead`: `none` is the arbiter's answer `bad` (`20_memory.md` R62, R63). -/
def Memory.read (m : Memory) (id off : Word) : Option Word :=
  match m.arrayAt id with
  | some p => if off < p.len then some (p.get off.toNat) else none
  | none => none

/-- `MemWrite`: `none` is the arbiter's answer `bad` (`20_memory.md` R62, R64). -/
def Memory.write (m : Memory) (id off v : Word) : Option Memory :=
  match m.arrayAt id with
  | some p =>
    if off < p.len then some { arrays := assocPut id.toNat (p.set off.toNat v) m.arrays } else none
  | none => none

/-- The first key from `k` on that is not in the list, looking at no more than `fuel` keys. -/
def firstFreeFrom {α : Type} (l : List (Nat × α)) : Nat → Nat → Nat
  | 0, k => k
  | fuel + 1, k => if (assocFind k l).isSome then firstFreeFrom l fuel (k + 1) else k

/-- `LowestFreeId()`: "scans ascending from 1 for the first identifier not currently mapped"; `none` when
1 to ID_MAX are all allocated (`20_memory.md` R66). With n arrays one of 1 to n + 1 is free. -/
def Memory.lowestFreeId (m : Memory) : Option Word :=
  let id := firstFreeFrom m.arrays m.arrays.length 1
  if id ≤ Config.idMax then some (BitVec.ofNat 32 id) else none

/-- `HeapAlloc(id, cap)` (`20_memory.md` R67). -/
def Memory.alloc (m : Memory) (id cap : Word) : Memory :=
  { arrays := assocPut id.toNat (PlatterArray.zeroed cap) m.arrays }

/-- `HeapFree(id)` (`20_memory.md` R68). -/
def Memory.free (m : Memory) (id : Word) : Memory := { arrays := assocErase id.toNat m.arrays }

/-- `HeapCopyTo0(id)`: array 0 becomes a copy of array `id`; `none` when `id` is not allocated
(`20_memory.md` R69, `46_control.md` R192). -/
def Memory.copyTo0 (m : Memory) (id : Word) : Option Memory :=
  match m.arrayAt id with
  | some p => some { arrays := assocPut 0 p m.arrays }
  | none => none

/-- The sum of the lengths of all allocated arrays (`20_memory.md` R71). -/
def Memory.totalWords (m : Memory) : Nat := (m.arrays.map (fun e => e.2.len.toNat)).sum

/-- The heap does not exceed HEAP_WORDS_MAX (`20_memory.md` R71; log entry 5). -/
def storageFits (p : Params) (m : Memory) : Bool :=
  match p.heapWordsMax with
  | none => true
  | some most => m.totalWords ≤ most

/-- The heap with `w` at offset `off` of array 0, array 0 made long enough to hold it: what the host's
`withFetchWord` needs, no operation of the machine. -/
def Memory.plant (m : Memory) (off w : Word) : Memory :=
  let p := (m.arrayAt 0).getD (PlatterArray.zeroed 0)
  let grown : PlatterArray := if off < p.len then p else { p with len := off + 1 }
  { arrays := assocPut 0 (grown.set off.toNat w) m.arrays }

/-! Registers and finger. -/

/-- `x[i]` in a register file (`00_scope.md` R9). -/
def regRead (x : Vector Word 8) (r : RegIdx) : Word := x[r.toNat]'(r.isLt)

/-- `x[i]` (`00_scope.md` R9). No register is hardwired (`10_state.md` R22). -/
def State.reg (s : State) (r : RegIdx) : Word := regRead s.regs r

/-- `x[i] <- v` (`00_scope.md` R9). -/
def State.setReg (s : State) (r : RegIdx) (v : Word) : State :=
  { s with regs := s.regs.set r.toNat v r.isLt }

/-- `pc <- v` (`00_scope.md` R9). -/
def State.setPc (s : State) (v : Word) : State := { s with pc := v }

/-- Replaces the heap. -/
def State.setMem (s : State) (m : Memory) : State := { s with mem := m }

/-- `status <- s` (`00_scope.md` R9). -/
def State.setStatus (s : State) (st : Status) : State := { s with status := st }

/-- The finger's advance after a successful decode, `pc <- pc + 1` (`40_execution_cycle.md` R124). -/
def State.advance (s : State) : State := s.setPc (s.pc + 1)

/-- The fetch: platter `pc` of array 0 as it now stands (`40_execution_cycle.md` R121, R122). -/
def State.fetch (s : State) : Option Word := s.mem.read 0 s.pc

/-! The I/O boundary. -/

/-- `IoRead()` (`45_io.md` R183, R185). A failed request leaves the source as it was (log entry 11). -/
def InputSource.take (src : InputSource) : ReadResult :=
  match src.answers with
  | .byte b :: rest => .byte b { src with answers := rest }
  | .endOfInput :: rest => .endOfInput { src with answers := rest }
  | .failed :: _ => .failed
  | [] =>
    match src.tail with
    | .exhausted => .endOfInput src
    | .silent => .waiting
    | .endless i k => .byte (Config.endlessInput i k) { src with tail := .endless i (k + 1) }

/-- An answer that brings a byte. -/
def InputAnswer.isByte : InputAnswer → Bool
  | .byte _ => true
  | .endOfInput => false
  | .failed => false

/-- Once the end has been answered, no byte follows in the list (`45_io.md` R187). -/
def answersOk : List InputAnswer → Bool
  | [] => true
  | .endOfInput :: rest => rest.all (fun a => !a.isByte)
  | .byte _ :: rest => answersOk rest
  | .failed :: rest => answersOk rest

/-- A source as R187 and R185 have it: end of input stays, and at the end the host still answers. -/
def InputSource.wf (src : InputSource) : Bool :=
  answersOk src.answers &&
    (!(src.answers.contains .endOfInput) || src.tail == .exhausted)

/-- Replaces the input source. -/
def State.setInput (s : State) (src : InputSource) : State := { s with input := src }

/-- `IoWrite(b)`: the byte is appended to the output trace when the boundary accepts it; `none` is the
answer `failed` (`45_io.md` R182). No listed answer left means accepted (log entry 9). -/
def State.ioWrite (s : State) (b : Byte) : Option State :=
  match s.outAnswers with
  | [] => some { s with trace := s.trace ++ [b] }
  | .accepted :: rest => some { s with trace := s.trace ++ [b], outAnswers := rest }
  | .failed :: _ => none

/-! Faults. -/

/-- The 3-bit code of a fault kind (`10_state.md` R31). -/
def FaultKind.code : FaultKind → BitVec 3
  | .decodeError => 0
  | .outOfBoundsAccess => 1
  | .divisionByZero => 2
  | .allocationExhausted => 3
  | .ioError => 4
  | .undefinedBehavior => 5

/-- The 2-bit code of the run status (`10_state.md` R29). -/
def Status.code : Status → BitVec 2
  | .running => 0
  | .halted => 1
  | .faulted => 2

/-- `diag.A` of a platter: the A of its own format (`10_state.md` R30). -/
def diagFieldA (w : Word) : RegIdx := if opField w = 13 then orthFieldA w else fieldA w

/-- The instruction part of the diagnostic for a fetched platter (`10_state.md` R30, `60_exceptions.md` R202). -/
def insnRecordOf (w : Word) (x : Vector Word 8) : InsnRecord :=
  { word := w, opcode := opField w, a := diagFieldA w, b := fieldB w, c := fieldC w,
    xa := regRead x (diagFieldA w), xb := regRead x (fieldB w), xc := regRead x (fieldC w) }

/-- FAULT ENTRY, `raise K` (`60_exceptions.md` R204, R207), from the state `s` at the start of the step:
`pc` is left at `pcAtFault`, `diag` is written, the status becomes Faulted, and nothing else changes. Where no
platter was fetched the instruction part of `diag` is a free value (log entry 12). -/
def State.takeFault (s : State) (kind : FaultKind) (pcAtFault : Word) : State :=
  match s.fetch with
  | some w =>
    { s with pc := pcAtFault, status := .faulted,
             diag := { kind := kind, pc := pcAtFault, hasInsn := true, insn := insnRecordOf w s.regs } }
  | none =>
    { s with pc := pcAtFault, status := .faulted,
             diag := { kind := kind, pc := pcAtFault, hasInsn := false,
                       insn := Config.openInsnRecord s.openCount },
             openCount := s.openCount + 1 }

/-- A fault raised by fetch or decode: the finger has not been advanced (`60_exceptions.md` R208). -/
def State.earlyFault (s : State) (kind : FaultKind) : State := s.takeFault kind s.pc

/-- A fault raised in dispatch: the finger has been advanced (`60_exceptions.md` R208). -/
def State.dispatchFault (s : State) (kind : FaultKind) : State := s.takeFault kind (s.pc + 1)

end Sys2Proof.Machine
end

