-- ==== Sys2Proof/Machine/Operands.lean ====
section
/-! DEFINITION. The operand forms: a whole register (`State.reg`, in Ops) and the immediate; and the four
results of the ALU (`43_arithmetic_logic.md`). -/

namespace Sys2Proof.Machine

open Sys2Proof

/-- `zext_32(value)` (`30_encoding.md` R94). -/
def immOperand (value : Imm) : Word := value.zeroExtend 32

/-- A byte from the input boundary in a register, upper bits 0 (`45_io.md` R181, R184). -/
def byteOperand (b : Byte) : Word := b.zeroExtend 32

/-- The end-of-input value, all bits set (`45_io.md` R181). -/
def endOfInputValue : Word := 0xFFFFFFFF

/-- Sum modulo 2^32 (`43_arithmetic_logic.md` R160). -/
def aluAdd (x y : Word) : Word := BitVec.ofNat 32 (x.toNat + y.toNat)

/-- Low 32 bits of the product (`43_arithmetic_logic.md` R161). -/
def aluMul (x y : Word) : Word := BitVec.ofNat 32 (x.toNat * y.toNat)

/-- Unsigned floor quotient, for a divisor other than 0 (`43_arithmetic_logic.md` R162). -/
def aluDiv (x y : Word) : Word := BitVec.ofNat 32 (x.toNat / y.toNat)

/-- Complement of the bitwise AND (`43_arithmetic_logic.md` R163). -/
def aluNand (x y : Word) : Word := ~~~(x &&& y)

end Sys2Proof.Machine
end

