-- ==== Sys2Proof/Machine/Flags.lean ====
section
/-! DEFINITION. The machine has no flags and no condition codes (`10_state.md` R32); the tests that
operations make on whole register values stand here. -/

namespace Sys2Proof.Machine

open Sys2Proof

/-- CMOV's condition: any of the 2^32 - 1 non-zero values holds (`41_move_and_immediate.md` R140). -/
def condHolds (x : Word) : Bool := x ≠ 0

/-- OUT's range check, on the whole 32-bit value (`45_io.md` R180). -/
def outputInRange (x : Word) : Bool := x.toNat ≤ 255

end Sys2Proof.Machine
end

