-- ==== Sys2Proof/Machine/Arith.lean ====
section
/-! DEFINITION. Addition, Multiplication, Division, Not-And (`43_arithmetic_logic.md`). -/

namespace Sys2Proof.Machine

open Sys2Proof

/-- ADD (R160). -/
def execAdd (a b c : RegIdx) (s : State) : Result :=
  .next (s.advance.setReg a (aluAdd (s.reg b) (s.reg c)))

/-- MUL (R161). -/
def execMul (a b c : RegIdx) (s : State) : Result :=
  .next (s.advance.setReg a (aluMul (s.reg b) (s.reg c)))

/-- DIV (R162); DivisionByZero when the divisor is 0. -/
def execDiv (a b c : RegIdx) (s : State) : Result :=
  if s.reg c = 0 then .next (s.dispatchFault .divisionByZero)
  else .next (s.advance.setReg a (aluDiv (s.reg b) (s.reg c)))

/-- NAND (R163). -/
def execNand (a b c : RegIdx) (s : State) : Result :=
  .next (s.advance.setReg a (aluNand (s.reg b) (s.reg c)))

end Sys2Proof.Machine
end

