-- ==== Sys2Proof/Machine/ArrayAccess.lean ====
section
/-! DEFINITION. Array Index and Array Amendment (`42_array_access.md`). -/

namespace Sys2Proof.Machine

open Sys2Proof

/-- AIDX (R150): `x[A] <- MemRead((x[B], x[C]))`, or OutOfBoundsAccess. -/
def execAidx (a b c : RegIdx) (s : State) : Result :=
  match s.mem.read (s.reg b) (s.reg c) with
  | some v => .next (s.advance.setReg a v)
  | none => .next (s.dispatchFault .outOfBoundsAccess)

/-- AMEND (R151): `MemWrite((x[A], x[B]), x[C])`, or OutOfBoundsAccess. -/
def execAmend (a b c : RegIdx) (s : State) : Result :=
  match s.mem.write (s.reg a) (s.reg b) (s.reg c) with
  | some m => .next (s.advance.setMem m)
  | none => .next (s.dispatchFault .outOfBoundsAccess)

end Sys2Proof.Machine
end

