-- ==== Sys2Proof/Machine/Control.lean ====
section
/-! DEFINITION. Halt, Load Program (`46_control.md`), and the two illegal opcodes (`30_encoding.md` R97). -/

namespace Sys2Proof.Machine

open Sys2Proof

/-- HALT (R190): the status becomes Halted; the finger has been advanced. All fields are ignored. -/
def execHalt (_a _b _c : RegIdx) (s : State) : Result :=
  .next (s.advance.setStatus .halted)

/-- LOADPROG (R191, R192): a jump to `x[C]` when `x[B]` is 0; else array 0 becomes a copy of array `x[B]` first.
OutOfBoundsAccess when that array is not allocated, then AllocationExhausted when a finite HEAP_WORDS_MAX would be
exceeded (`60_exceptions.md` R209). Field A is ignored. -/
def execLoadprog (_a b c : RegIdx) (s : State) : Result :=
  if s.reg b = 0 then .next (s.advance.setPc (s.reg c))
  else
    match s.mem.copyTo0 (s.reg b) with
    | none => .next (s.dispatchFault .outOfBoundsAccess)
    | some m =>
      if storageFits s.params m then .next ((s.advance.setMem m).setPc (s.reg c))
      else .next (s.dispatchFault .allocationExhausted)

/-- Opcode 14: DecodeError, the finger not advanced (`40_execution_cycle.md` R123). -/
def execIllegal14 (s : State) : Result := .next (s.earlyFault .decodeError)

/-- Opcode 15: DecodeError, the finger not advanced (`40_execution_cycle.md` R123). -/
def execIllegal15 (s : State) : Result := .next (s.earlyFault .decodeError)

end Sys2Proof.Machine
end

