-- ==== Sys2Proof/Machine/HeapManagement.lean ====
section
/-! DEFINITION. Allocation and Abandonment (`44_heap_management.md`). -/

namespace Sys2Proof.Machine

open Sys2Proof

/-- ALLOC (R170): the lowest free identifier, a new all-zero array of `x[C]` platters, the identifier to `x[B]`.
AllocationExhausted when no identifier is free, or when a finite HEAP_WORDS_MAX would be exceeded
(`20_memory.md` R71). Field A is ignored. -/
def execAlloc (_a b c : RegIdx) (s : State) : Result :=
  match s.mem.lowestFreeId with
  | none => .next (s.dispatchFault .allocationExhausted)
  | some id =>
    if storageFits s.params (s.mem.alloc id (s.reg c)) then
      .next ((s.advance.setMem (s.mem.alloc id (s.reg c))).setReg b id)
    else .next (s.dispatchFault .allocationExhausted)

/-- ABANDON (R171): releases array `x[C]`; OutOfBoundsAccess for identifier 0 and for one not allocated. Fields A
and B are ignored. -/
def execAbandon (_a _b c : RegIdx) (s : State) : Result :=
  if s.reg c = 0 then .next (s.dispatchFault .outOfBoundsAccess)
  else if s.mem.allocated (s.reg c) then .next (s.advance.setMem (s.mem.free (s.reg c)))
  else .next (s.dispatchFault .outOfBoundsAccess)

end Sys2Proof.Machine
end

