-- ==== Sys2Proof/Machine/Io.lean ====
section
/-! DEFINITION. Output and Input (`45_io.md`). -/

namespace Sys2Proof.Machine

open Sys2Proof

/-- OUT (R180): UndefinedBehavior when `x[C]` is above 255, checked before the boundary is asked (R209); IOError when
the boundary fails. Fields A and B are ignored. -/
def execOut (_a _b c : RegIdx) (s : State) : Result :=
  if outputInRange (s.reg c) then
    match s.advance.ioWrite ((s.reg c).extractLsb' 0 8) with
    | some t => .next t
    | none => .next (s.dispatchFault .ioError)
  else .next (s.dispatchFault .undefinedBehavior)

/-- IN (R181): a byte zero-extended, or all ones at the end of input, to `x[C]`; IOError when the boundary fails.
While the host has not answered no state changes (`40_execution_cycle.md` R128, log entry 8). Fields A and B are
ignored. -/
def execInp (_a _b c : RegIdx) (s : State) : Result :=
  match s.input.take with
  | .byte b rest => .next ((s.advance.setInput rest).setReg c (byteOperand b))
  | .endOfInput rest => .next ((s.advance.setInput rest).setReg c endOfInputValue)
  | .failed => .next (s.dispatchFault .ioError)
  | .waiting => .next s

end Sys2Proof.Machine
end

