-- ==== Sys2Proof/Machine/Move.lean ====
section
/-! DEFINITION. Conditional Move and Orthography (`41_move_and_immediate.md`). Every meaning takes the
state at the start of the step, makes the finger's advance itself and reads its registers before it writes
(`40_execution_cycle.md` R124, R127; log entry 15). -/

namespace Sys2Proof.Machine

open Sys2Proof

/-- CMOV (R140): `if x[C] != 0: x[A] <- x[B]`. -/
def execCmov (a b c : RegIdx) (s : State) : Result :=
  .next (if condHolds (s.reg c) then s.advance.setReg a (s.reg b) else s.advance)

/-- ORTH (R141): `x[A] <- zext_32(value)`. -/
def execOrth (a : RegIdx) (value : Imm) (s : State) : Result :=
  .next (s.advance.setReg a (immOperand value))

end Sys2Proof.Machine
end

