-- ==== Sys2Proof/Machine/Dispatch.lean ====
section
/-! DEFINITION. `Execute(d)`: the closed choice by operation (`40_execution_cycle.md` R125), one arm per row of the
opcode table. -/

namespace Sys2Proof.Machine

open Sys2Proof

def exec (i : Instr) (s : State) : Host.Outcome State Fault Refusal :=
  match i with
  | .cmov a b c => Sys2Proof.Machine.execCmov a b c s
  | .aidx a b c => Sys2Proof.Machine.execAidx a b c s
  | .amend a b c => Sys2Proof.Machine.execAmend a b c s
  | .add a b c => Sys2Proof.Machine.execAdd a b c s
  | .mul a b c => Sys2Proof.Machine.execMul a b c s
  | .div a b c => Sys2Proof.Machine.execDiv a b c s
  | .nand a b c => Sys2Proof.Machine.execNand a b c s
  | .halt a b c => Sys2Proof.Machine.execHalt a b c s
  | .alloc a b c => Sys2Proof.Machine.execAlloc a b c s
  | .abandon a b c => Sys2Proof.Machine.execAbandon a b c s
  | .out a b c => Sys2Proof.Machine.execOut a b c s
  | .inp a b c => Sys2Proof.Machine.execInp a b c s
  | .loadprog a b c => Sys2Proof.Machine.execLoadprog a b c s
  | .orth a value => Sys2Proof.Machine.execOrth a value s
  | .illegal14 => Sys2Proof.Machine.execIllegal14 s
  | .illegal15 => Sys2Proof.Machine.execIllegal15 s

end Sys2Proof.Machine
end

