-- ==== Sys2Proof/Machine/Step.lean ====
section
/-! DEFINITION. The one step of the one agent (`40_execution_cycle.md` R120), and the host's way of placing an
instruction where the next step fetches. -/

namespace Sys2Proof.Machine

open Sys2Proof

/-- The step (R120): enabled only in status Running; fetch, decode, advance, dispatch. A fetch past the end of array 0
raises OutOfBoundsAccess (R121). In a terminal status there is no step, and the outcome is a fault of the model (log
entries 3 and 4). -/
def step (s : State) : Host.Outcome State Fault Refusal :=
  match s.status with
  | .halted => .fault .halted
  | .faulted => .fault (.faulted s.diag.kind)
  | .running =>
    match s.fetch with
    | none => .next (s.earlyFault .outOfBoundsAccess)
    | some w => exec (decode w) s

/-- Stands for the program load (log entry 6): platter `pc` of array 0 is `w`, array 0 is long enough to hold it, and the
machine is Running. A finger at 2^32 - 1, which no array reaches, is put to 0 first (log entry 16). -/
def State.withFetchWord (s : State) (nbits w : Nat) : State :=
  let at0 : State := if s.pc = 0xFFFFFFFF then s.setPc 0 else s
  (at0.setStatus .running).setMem (at0.mem.plant at0.pc (BitVec.ofNat 32 (w % 2 ^ nbits)))

end Sys2Proof.Machine
end

