-- ==== Sys2Proof/Machine/Load.lean ====
section
/-! DEFINITION. Reset with a program (`70_reset_and_hazards.md` R240 to R243) and the two scroll encodings that define the
words of PROGRAM (R244 to R246). -/

namespace Sys2Proof.Machine

open Sys2Proof

/-- The platters of a word sequence that are not 0, with their offsets from `k` on. -/
def cellsFrom : Nat → List Word → List (Nat × Word)
  | _, [] => []
  | k, w :: rest => if w = 0 then cellsFrom (k + 1) rest else (k, w) :: cellsFrom (k + 1) rest

/-- The array that a word sequence seeds (R241). -/
def PlatterArray.ofWords (ws : List Word) : PlatterArray :=
  { len := BitVec.ofNat 32 ws.length, cells := cellsFrom 0 ws }

/-- Reset and program load (R240 to R242): the state that reset leaves, whatever the state before, for a PROGRAM of at most
2^32 - 1 words, the host's answers and the parameters of the run; `none` for a longer sequence, which is no PROGRAM (R243). -/
def State.load (program : List Word) (input : InputSource) (outAnswers : List OutputAnswer)
    (params : Params) : Option State :=
  if programLengthOk program.length then
    some { State.reset with
      mem := { arrays := [(0, PlatterArray.ofWords program)] },
      input := input, outAnswers := outAnswers, params := params }
  else none

/-- The words of a binary scroll (R244); `none` when its length is no multiple of 4 (R246). -/
def binaryScroll : List Byte → Option (List Word)
  | [] => some []
  | b0 :: b1 :: b2 :: b3 :: rest => (binaryScroll rest).map (fun ws => wordOfBytes b0 b1 b2 b3 :: ws)
  | _ => none

/-- The value of a line of `0` and `1`, most significant first (R245). -/
def textLineValue (line : List Char) : Nat :=
  line.foldl (fun acc ch => 2 * acc + (if ch = '1' then 1 else 0)) 0

/-- The words of a text scroll, one line each (R245); `none` when a line is not exactly 32 characters `0` or `1` (R246). -/
def textScroll : List (List Char) → Option (List Word)
  | [] => some []
  | line :: rest =>
    if textLineOk line then
      (textScroll rest).map (fun ws => BitVec.ofNat 32 (textLineValue line) :: ws)
    else none

end Sys2Proof.Machine
end

