-- ==== Sys2Proof/Safety.lean ====
section
/-! DEFINITION. The terms in which claims are stated: what an instruction leaves alone, what a fault leaves, the invariant
of the machine, and what counts as a safe state. -/

namespace Sys2Proof.Machine

open Sys2Proof

/-- No platter and no length of any array differs. -/
def SameMemory (s t : State) : Prop :=
  t.mem = s.mem ∧ (∀ id off : Word, t.mem.read id off = s.mem.read id off) ∧
    ∀ id : Word, t.mem.lenOf id = s.mem.lenOf id

/-- Nothing was emitted, nothing consumed. -/
def SameIo (s t : State) : Prop :=
  t.trace = s.trace ∧ t.input = s.input ∧ t.outAnswers = s.outAnswers

/-- Status, diagnostic, parameters and the counter of free values are as before. -/
def SameControl (s t : State) : Prop :=
  t.status = s.status ∧ t.diag = s.diag ∧ t.params = s.params ∧ t.openCount = s.openCount

/-- Every register but `a` is as before. -/
def RegsSameExcept (a : RegIdx) (s t : State) : Prop := ∀ r : RegIdx, r ≠ a → t.reg r = s.reg r

/-- Every register is as before. -/
def RegsSame (s t : State) : Prop := ∀ r : RegIdx, t.reg r = s.reg r

/-- Only register `a` and the finger, which moved to the next platter, may differ. -/
def WritesOnly (a : RegIdx) (s t : State) : Prop :=
  RegsSameExcept a s t ∧ t.pc = s.pc + 1 ∧ SameMemory s t ∧ SameIo s t ∧ SameControl s t

/-- Array `id` has the same length and the same platters in both heaps. -/
def SameArray (id : Word) (m n : Memory) : Prop :=
  n.lenOf id = m.lenOf id ∧ ∀ off : Word, n.read id off = m.read id off

/-- What a fault of kind `kind` leaves (`60_exceptions.md` R204): Faulted, the kind recorded, the finger at `pcAt`, and no
register, platter, array, byte of output or byte of input changed. For an IOError, R204 leaves the byte in flight to the host; that
the lists of answers stay is log entry 11. -/
def FaultedWith (kind : FaultKind) (pcAt : Word) (s t : State) : Prop :=
  t.status = .faulted ∧ t.diag.kind = kind ∧ t.diag.pc = pcAt ∧ t.pc = pcAt ∧
    RegsSame s t ∧ SameMemory s t ∧ SameIo s t ∧ t.params = s.params

/-- A fault of kind `kind` raised in dispatch, as the instruction rules say it: Faulted, the kind, the finger already advanced
(`40_execution_cycle.md` R120), and nothing written. Of the finger value in the diagnostic, the spec's own decision D8, it says
nothing. -/
def FaultsInDispatch (kind : FaultKind) (s t : State) : Prop :=
  t.status = .faulted ∧ t.diag.kind = kind ∧ t.pc = s.pc + 1 ∧
    RegsSame s t ∧ SameMemory s t ∧ SameIo s t ∧ t.params = s.params

/-- The state is not a failure: Faulted "is never a successful final state" (`60_exceptions.md` R212). -/
def State.safe (s : State) : Prop := s.status ≠ .faulted

/-- The invariant of the machine: the heap is canonical (identifiers distinct and at most ID_MAX, offsets below the lengths),
array 0 exists (`10_state.md` R35), the input source is one R187 allows, and the storage bound holds (`20_memory.md` R71). -/
abbrev State.Inv (s : State) : Prop :=
  s.mem.wf ∧ s.mem.allocated 0 = true ∧ s.input.wf = true ∧ storageFits s.params s.mem = true

/-- The register an operation writes when it completes (`10_state.md` R22). -/
def instrWrittenReg : Instr → Option RegIdx
  | .cmov a _ _ => some a
  | .aidx a _ _ => some a
  | .amend _ _ _ => none
  | .add a _ _ => some a
  | .mul a _ _ => some a
  | .div a _ _ => some a
  | .nand a _ _ => some a
  | .halt _ _ _ => none
  | .alloc _ b _ => some b
  | .abandon _ _ _ => none
  | .out _ _ _ => none
  | .inp _ _ c => some c
  | .loadprog _ _ _ => none
  | .orth a _ => some a
  | .illegal14 => none
  | .illegal15 => none

/-- The register fields of a regular instruction (`30_encoding.md` R92). -/
def instrRegularFields : Instr → Option (RegIdx × RegIdx × RegIdx)
  | .cmov a b c => some (a, b, c)
  | .aidx a b c => some (a, b, c)
  | .amend a b c => some (a, b, c)
  | .add a b c => some (a, b, c)
  | .mul a b c => some (a, b, c)
  | .div a b c => some (a, b, c)
  | .nand a b c => some (a, b, c)
  | .halt a b c => some (a, b, c)
  | .alloc a b c => some (a, b, c)
  | .abandon a b c => some (a, b, c)
  | .out a b c => some (a, b, c)
  | .inp a b c => some (a, b, c)
  | .loadprog a b c => some (a, b, c)
  | .orth _ _ => none
  | .illegal14 => none
  | .illegal15 => none

/-- `n` steps one after another; `none` when one of them has no next state. -/
def runSteps : Nat → State → Option State
  | 0, s => some s
  | n + 1, s =>
    match step s with
    | .next t => runSteps n t
    | _ => none

/-- The input stream has reached its end: no byte is left to come, and the host still answers (`45_io.md` R187). -/
def InputSource.ended (src : InputSource) : Bool :=
  src.answers.all (fun a => !a.isByte) && src.tail == .exhausted

end Sys2Proof.Machine
end

