-- ==== Sys2Proof/Certificates/Slice0/Obligations.lean ====
section
/-! DEFINITION. The statements for the provers. Each docstring names the rule of spec/ it formalises, or says that it rests on
the spec's own decision or on this model's choice, with the log entry. -/

open Sys2Proof Sys2Proof.Machine

/-! ## Encoding -/

/-- R100: the encoder's words as numbers, and decoding recovers the opcode and every field at every value; the other direction
holds up to the ignored bits 27:9. -/
def Obligations.DecoderInvertsEncoder : Prop :=
  (∀ (op : BitVec 4) (a b c : RegIdx), op.toNat ≤ 12 →
    (encRegular op a b c).toNat = op.toNat * 2 ^ 28 + a.toNat * 64 + b.toNat * 8 + c.toNat ∧
    (decode (encRegular op a b c)).opcode = op ∧
    instrRegularFields (decode (encRegular op a b c)) = some (a, b, c)) ∧
  (∀ (a : RegIdx) (v : Imm),
    (encOrth a v).toNat = 13 * 2 ^ 28 + a.toNat * 2 ^ 25 + v.toNat ∧
    decode (encOrth a v) = .orth a v) ∧
  (∀ i : Instr, decode (encode i) = i) ∧
  (∀ w : Word, w.toNat / 2 ^ 28 ≤ 12 → encode (decode w) = w &&& 0xF00001FF)

/-- Bits 27:9 of a regular platter and the register fields an operation ignores have no effect. This is the spec's own decision
D4 (log entry 10), no statement of the source. -/
def Obligations.UnusedBitsHaveNoEffect : Prop :=
  (∀ w v : Word, w.toNat / 2 ^ 28 ≤ 12 → w &&& 0xF00001FF = v &&& 0xF00001FF →
    decode w = decode v ∧ (decode w).wellFormed = true) ∧
  (∀ (a b c a' b' c' : RegIdx) (s : State),
    exec (.halt a b c) s = exec (.halt a' b' c') s ∧
    exec (.alloc a b c) s = exec (.alloc a' b c) s ∧
    exec (.abandon a b c) s = exec (.abandon a' b' c) s ∧
    exec (.out a b c) s = exec (.out a' b' c) s ∧
    exec (.inp a b c) s = exec (.inp a' b' c) s ∧
    exec (.loadprog a b c) s = exec (.loadprog a' b c) s)

/-- R97: the illegal instructions are exactly the words 0xE0000000 to 0xFFFFFFFF, 2^29 words, and fetching one raises
DecodeError. -/
def Obligations.IllegalWordsRaiseDecodeError : Prop :=
  (∀ w : Word, (decode w).wellFormed = false ↔ 0xE0000000 ≤ w.toNat) ∧
  (∀ w : Word, 14 ≤ w.toNat / 2 ^ 28 ↔ 0xE0000000 ≤ w.toNat) ∧
  (∀ (s : State) (w : Word), s.status = .running → s.fetch = some w → 0xE0000000 ≤ w.toNat →
    ∃ t, step s = .next t ∧ t.status = .faulted ∧ t.diag.kind = .decodeError)

/-- Words written out in `95_test_vectors.md` decode to the instruction printed beside them. -/
def Obligations.SampleWordsDecode : Prop :=
  decode 0x00000053 = .cmov 1 2 3 ∧ decode 0x0FFFFE53 = .cmov 1 2 3 ∧
  decode 0x1000014B = .aidx 5 1 3 ∧ decode 0x2000005C = .amend 1 3 4 ∧
  decode 0x300001F0 = .add 7 6 0 ∧ decode 0x4000016D = .mul 5 5 5 ∧
  decode 0x50000088 = .div 2 1 0 ∧ decode 0x600000D1 = .nand 3 2 1 ∧
  decode 0x7FFFFFFF = .halt 7 7 7 ∧ decode 0x8000000A = .alloc 0 1 2 ∧
  decode 0x90000004 = .abandon 0 0 4 ∧ decode 0xA0000004 = .out 0 0 4 ∧
  decode 0xB0000002 = .inp 0 0 2 ∧ decode 0xC0000013 = .loadprog 0 2 3 ∧
  decode 0xD00001FF = .orth 0 511 ∧ decode 0xDFFFFFFF = .orth 7 0x1FFFFFF ∧
  decode 0xE0000000 = .illegal14 ∧ decode 0xFFFFFFFF = .illegal15

/-! ## The step -/

/-- A step of a Running machine runs the instruction that platter `pc` of array 0 decodes to; the finger's advance is part of the
instruction's meaning (log entry 15). -/
def Obligations.StepRunsDecodedInstruction : Prop :=
  ∀ (s : State) (w : Word), s.status = .running → s.mem.read 0 s.pc = some w →
    step s = exec (decode w) s

/-- A fetch with the finger at or beyond the end of array 0 faults, the finger unchanged, with no platter recorded; whatever the
open fields of the diagnostic hold. The spec's own decision D5. -/
def Obligations.FetchPastEndFaults : Prop :=
  ∀ (s : State) (n : Word), s.status = .running → s.mem.lenOf 0 = some n → n ≤ s.pc →
    ∃ t, step s = .next t ∧ FaultedWith .outOfBoundsAccess s.pc s t ∧ t.diag.hasInsn = false

/-- Halted and Faulted are terminal: no step has a next state. That the outcome is a fault of these names is the model's choice
(log entries 3 and 4). -/
def Obligations.TerminalStatusHasNoStep : Prop :=
  (∀ s : State, s.status = .halted → step s = .fault .halted) ∧
  (∀ s : State, s.status = .faulted → step s = .fault (.faulted s.diag.kind))

/-- A step of a Running machine always has a next state, and it is Running, or Halted by a HALT with nothing but the finger
changed, or Faulted. That an IN whose host has not answered has a next state, the same one, is the model's reading (log entry 8); that
fault entry is a next state is log entry 3, and which finger the diagnostic records is the spec's own decision D8. -/
def Obligations.RunningStepHasOneOfThreeOutcomes : Prop :=
  ∀ s : State, s.status = .running → ∃ t, step s = .next t ∧
    (t.status = .running ∨
     (t.status = .halted ∧ (∃ w, s.fetch = some w ∧ w.toNat / 2 ^ 28 = 7) ∧ t.pc = s.pc + 1 ∧
        RegsSame s t ∧ SameMemory s t ∧ SameIo s t ∧ t.diag = s.diag ∧ t.params = s.params) ∨
     (t.status = .faulted ∧ t.diag.pc = t.pc))

/-- Faults are precise: a faulting step writes nothing but the diagnostic, the status and the finger; the finger is advanced
exactly when the fault came from dispatch. Derived in the spec from R204 and its own decision D8. That the host's answers stay as
they were after an IOError, where R204 leaves the byte in flight to the host, is the model's choice (log entry 11). -/
def Obligations.FaultsArePrecise : Prop :=
  ∀ s t : State, s.status = .running → step s = .next t → t.status = .faulted →
    RegsSame s t ∧ SameMemory s t ∧ SameIo s t ∧ t.params = s.params ∧ t.diag.pc = t.pc ∧
    t.diag.hasInsn = s.fetch.isSome ∧
    (t.diag.hasInsn = false ∨ t.diag.kind = .decodeError → t.pc = s.pc) ∧
    (t.diag.hasInsn = true ∧ t.diag.kind ≠ .decodeError → t.pc = s.pc + 1)

/-- The diagnostic of a fault with a fetched platter holds that platter, its opcode, and the fields and register contents of the
operands the faulting operation uses. The layout is the spec's own decision D8; the other fields carry no meaning (U9, log entry
12) and nothing is said of them. -/
def Obligations.DiagnosticRecordsFetchedPlatter : Prop :=
  ∀ (s t : State) (w : Word), s.status = .running → s.fetch = some w → step s = .next t →
    t.status = .faulted →
    t.diag.hasInsn = true ∧ t.diag.insn.word = w ∧ t.diag.insn.opcode.toNat = w.toNat / 2 ^ 28 ∧
    (w.toNat / 2 ^ 28 ≤ 12 →
      t.diag.insn.c.toNat = w.toNat % 8 ∧ t.diag.insn.xc = s.reg t.diag.insn.c) ∧
    (w.toNat / 2 ^ 28 ∈ [1, 2, 5, 8, 12] →
      t.diag.insn.b.toNat = w.toNat / 8 % 8 ∧ t.diag.insn.xb = s.reg t.diag.insn.b) ∧
    (w.toNat / 2 ^ 28 ∈ [1, 2, 5] →
      t.diag.insn.a.toNat = w.toNat / 64 % 8 ∧ t.diag.insn.xa = s.reg t.diag.insn.a)

/-- Of the steps that do not fault, only LOADPROG leaves the finger anywhere but at the next platter, but for an IN whose host has
not answered, which changes nothing (log entry 8). -/
def Obligations.OnlyLoadProgramRedirectsFinger : Prop :=
  ∀ (s t : State) (w : Word), s.status = .running → s.fetch = some w → step s = .next t →
    t.status ≠ .faulted → w.toNat / 2 ^ 28 ≠ 12 →
    t.pc = s.pc + 1 ∨ (w.toNat / 2 ^ 28 = 11 ∧ s.input.take = .waiting ∧ t = s)

/-- Only OUT adds to the output trace, and it adds the one byte of `x[C]`; only IN moves the input source. How the boundary's answers
are held (log entries 7 and 9), and that a failed OUT leaves them as they were (log entry 11), are the model's choices. -/
def Obligations.OnlyIoOperationsTouchBoundary : Prop :=
  ∀ s t : State, s.status = .running → step s = .next t →
    ((t.trace = s.trace ∧ t.outAnswers = s.outAnswers) ∨
      ∃ w, s.fetch = some w ∧ w.toNat / 2 ^ 28 = 10 ∧ (s.reg (fieldC w)).toNat ≤ 255 ∧
        t.trace = s.trace ++ [(s.reg (fieldC w)).extractLsb' 0 8]) ∧
    (t.input = s.input ∨ ∃ w, s.fetch = some w ∧ w.toNat / 2 ^ 28 = 11)

/-- No operation but AMEND, ALLOC, ABANDON and LOADPROG changes the heap, and LOADPROG changes it only from a non-zero source. -/
def Obligations.OnlyHeapOperationsChangeHeap : Prop :=
  ∀ s t : State, s.status = .running → step s = .next t →
    SameMemory s t ∨
      ∃ w, s.fetch = some w ∧
        (w.toNat / 2 ^ 28 ∈ [2, 8, 9] ∨ (w.toNat / 2 ^ 28 = 12 ∧ s.reg (fieldB w) ≠ 0))

/-- Only the register that the operation names as its destination can change in a step (the table of R22), and the parameters of
the run never change. -/
def Obligations.OnlyDestinationRegisterWritten : Prop :=
  ∀ s t : State, s.status = .running → step s = .next t →
    t.params = s.params ∧
    ∀ r : RegIdx, t.reg r ≠ s.reg r →
      ∃ w, s.fetch = some w ∧ instrWrittenReg (decode w) = some r

/-! ## Move and immediate -/

/-- R140, CMOV. -/
def Obligations.CmovMovesWhenConditionNonzero : Prop :=
  ∀ (a b c : RegIdx) (s : State),
    (encode (.cmov a b c)).toNat = 0x00000000 + 64 * a.toNat + 8 * b.toNat + c.toNat ∧
    ∃ t, exec (.cmov a b c) s = .next t ∧ WritesOnly a s t ∧
      (s.reg c ≠ 0 → t.reg a = s.reg b) ∧ (s.reg c = 0 → t.reg a = s.reg a)

/-- R141, ORTH. -/
def Obligations.OrthLoadsZeroExtendedImmediate : Prop :=
  ∀ (a : RegIdx) (v : Imm) (s : State),
    (encode (.orth a v)).toNat = 0xD0000000 + 2 ^ 25 * a.toNat + v.toNat ∧
    ∃ t, exec (.orth a v) s = .next t ∧ WritesOnly a s t ∧ (t.reg a).toNat = v.toNat

/-! ## Array access -/

/-- R150, AIDX: the platter at (`x[B]`, `x[C]`), or OutOfBoundsAccess in exactly the two cases of the rule. -/
def Obligations.AidxLoadsPlatterOrFaults : Prop :=
  ∀ (a b c : RegIdx) (s : State),
    (encode (.aidx a b c)).toNat = 0x10000000 + 64 * a.toNat + 8 * b.toNat + c.toNat ∧
    (∀ n : Word, s.mem.lenOf (s.reg b) = some n → s.reg c < n →
      ∃ t v, exec (.aidx a b c) s = .next t ∧ WritesOnly a s t ∧
        s.mem.read (s.reg b) (s.reg c) = some v ∧ t.reg a = v) ∧
    (s.mem.allocated (s.reg b) = false ∨ (∃ n, s.mem.lenOf (s.reg b) = some n ∧ n ≤ s.reg c) →
      ∃ t, exec (.aidx a b c) s = .next t ∧ FaultsInDispatch .outOfBoundsAccess s t)

/-- R151 with R64, AMEND: platter (`x[A]`, `x[B]`) becomes `x[C]`, no other platter of any array and no length changes; or
OutOfBoundsAccess and nothing is stored. -/
def Obligations.AmendStoresPlatterOrFaults : Prop :=
  ∀ (a b c : RegIdx) (s : State),
    (encode (.amend a b c)).toNat = 0x20000000 + 64 * a.toNat + 8 * b.toNat + c.toNat ∧
    (∀ n : Word, s.mem.lenOf (s.reg a) = some n → s.reg b < n →
      ∃ t, exec (.amend a b c) s = .next t ∧
        t.mem.read (s.reg a) (s.reg b) = some (s.reg c) ∧
        (∀ id off : Word, ¬ (id = s.reg a ∧ off = s.reg b) → t.mem.read id off = s.mem.read id off) ∧
        (∀ id : Word, t.mem.lenOf id = s.mem.lenOf id) ∧
        RegsSame s t ∧ t.pc = s.pc + 1 ∧ SameIo s t ∧ SameControl s t) ∧
    (s.mem.allocated (s.reg a) = false ∨ (∃ n, s.mem.lenOf (s.reg a) = some n ∧ n ≤ s.reg b) →
      ∃ t, exec (.amend a b c) s = .next t ∧ FaultsInDispatch .outOfBoundsAccess s t)

/-- A platter stored into the running program just ahead of the finger is what the next step runs (derived in the spec, R80). -/
def Obligations.StoredPlatterIsFetchedNext : Prop :=
  ∀ (a b c : RegIdx) (s : State) (n : Word), s.status = .running → s.reg a = 0 →
    s.reg b = s.pc + 1 → s.mem.lenOf 0 = some n → s.reg b < n →
    ∃ t, exec (.amend a b c) s = .next t ∧ step t = exec (decode (s.reg c)) t

/-! ## Arithmetic and logic -/

/-- R160, ADD. -/
def Obligations.AddIsSumModulo : Prop :=
  ∀ (a b c : RegIdx) (s : State),
    (encode (.add a b c)).toNat = 0x30000000 + 64 * a.toNat + 8 * b.toNat + c.toNat ∧
    ∃ t, exec (.add a b c) s = .next t ∧ WritesOnly a s t ∧
      (t.reg a).toNat = ((s.reg b).toNat + (s.reg c).toNat) % 2 ^ 32

/-- R161, MUL. -/
def Obligations.MulIsProductModulo : Prop :=
  ∀ (a b c : RegIdx) (s : State),
    (encode (.mul a b c)).toNat = 0x40000000 + 64 * a.toNat + 8 * b.toNat + c.toNat ∧
    ∃ t, exec (.mul a b c) s = .next t ∧ WritesOnly a s t ∧
      (t.reg a).toNat = ((s.reg b).toNat * (s.reg c).toNat) % 2 ^ 32

/-- R162, DIV: the floor quotient, or DivisionByZero exactly when the divisor is 0. -/
def Obligations.DivIsFloorQuotientOrFaults : Prop :=
  ∀ (a b c : RegIdx) (s : State),
    (encode (.div a b c)).toNat = 0x50000000 + 64 * a.toNat + 8 * b.toNat + c.toNat ∧
    (s.reg c ≠ 0 → ∃ t, exec (.div a b c) s = .next t ∧ WritesOnly a s t ∧
      (t.reg a).toNat = (s.reg b).toNat / (s.reg c).toNat) ∧
    (s.reg c = 0 → ∃ t, exec (.div a b c) s = .next t ∧
      FaultsInDispatch .divisionByZero s t)

/-- The quotient is the unique q with q·d ≤ n < (q + 1)·d (derived in the spec, R165). -/
def Obligations.DivQuotientIsUnique : Prop :=
  ∀ (a b c : RegIdx) (s : State), s.reg c ≠ 0 →
    ∃ t, exec (.div a b c) s = .next t ∧ (t.reg a).toNat ≤ (s.reg b).toNat ∧
      ∀ q : Nat, (q * (s.reg c).toNat ≤ (s.reg b).toNat ∧
        (s.reg b).toNat < (q + 1) * (s.reg c).toNat) ↔ q = (t.reg a).toNat

/-- R163, NAND: bit by bit, and NAND of a register with itself is its complement. -/
def Obligations.NandIsComplementOfAnd : Prop :=
  ∀ (a b c : RegIdx) (s : State),
    (encode (.nand a b c)).toNat = 0x60000000 + 64 * a.toNat + 8 * b.toNat + c.toNat ∧
    ∃ t, exec (.nand a b c) s = .next t ∧ WritesOnly a s t ∧
      (∀ k : Nat, k < 32 →
        (t.reg a).getLsbD k = !((s.reg b).getLsbD k && (s.reg c).getLsbD k)) ∧
      (b = c → (t.reg a).toNat = 2 ^ 32 - 1 - (s.reg b).toNat)

/-! ## Heap management -/

/-- R66, R67 and R172, ALLOC: a new all-zero array of `x[C]` platters under the least identifier from 1 on that is not allocated,
stored in `x[B]`; AllocationExhausted when there is none. The premise that the storage suffices is about HEAP_WORDS_MAX, the
spec's own decision D10 (log entry 5), and is empty for the default. -/
def Obligations.AllocReturnsLeastFreeIdentifier : Prop :=
  ∀ (a b c : RegIdx) (s : State),
    (∀ id : Word, id ≠ 0 → s.mem.allocated id = false →
      (∀ j : Word, j ≠ 0 → j < id → s.mem.allocated j = true) →
      (∀ most : Nat, s.params.heapWordsMax = some most →
        s.mem.totalWords + (s.reg c).toNat ≤ most) →
      ∃ t, exec (.alloc a b c) s = .next t ∧ t.reg b = id ∧
        t.mem.lenOf id = some (s.reg c) ∧
        (∀ off : Word, off < s.reg c → t.mem.read id off = some 0) ∧
        (∀ j : Word, j ≠ id → SameArray j s.mem t.mem) ∧
        RegsSameExcept b s t ∧ t.pc = s.pc + 1 ∧ SameIo s t ∧ SameControl s t) ∧
    ((∀ j : Word, j ≠ 0 → s.mem.allocated j = true) →
      ∃ t, exec (.alloc a b c) s = .next t ∧ FaultsInDispatch .allocationExhausted s t)

/-- R171, ABANDON: array `x[C]` is released, every later access to it answers `bad` and its identifier is free; OutOfBoundsAccess for
identifier 0 and for one not allocated. -/
def Obligations.AbandonReleasesArrayOrFaults : Prop :=
  ∀ (a b c : RegIdx) (s : State),
    (encode (.abandon 0 0 c)).toNat = 0x90000000 + c.toNat ∧
    (s.reg c ≠ 0 → s.mem.allocated (s.reg c) = true →
      ∃ t, exec (.abandon a b c) s = .next t ∧ t.mem.allocated (s.reg c) = false ∧
        (∀ off : Word, t.mem.read (s.reg c) off = none) ∧
        (∀ j : Word, j ≠ s.reg c → SameArray j s.mem t.mem) ∧
        RegsSame s t ∧ t.pc = s.pc + 1 ∧ SameIo s t ∧ SameControl s t) ∧
    (s.reg c = 0 ∨ s.mem.allocated (s.reg c) = false →
      ∃ t, exec (.abandon a b c) s = .next t ∧ FaultsInDispatch .outOfBoundsAccess s t)

/-- R173: the identifiers that sequences of ALLOC and ABANDON return. (a) With exactly 0 to k allocated, ALLOC returns k + 1. (b) After
ABANDON of j, the next ALLOC returns the smaller of j and the least identifier that was free before, j if none was. (c) Two ALLOCs
in a row return ascending identifiers, and the second is the least free one above the first. -/
def Obligations.AllocAbandonSequencesReturnLowestIdentifiers : Prop :=
  (∀ (a b c : RegIdx) (s t : State) (k : Word), s.status = .running → k ≠ 0xFFFFFFFF →
    (∀ j : Word, s.mem.allocated j = true ↔ j ≤ k) →
    exec (.alloc a b c) s = .next t → t.status = .running → t.reg b = k + 1) ∧
  (∀ (a b c a' b' c' : RegIdx) (s t u : State), s.status = .running →
    exec (.abandon a b c) s = .next t → t.status = .running →
    exec (.alloc a' b' c') t = .next u → u.status = .running →
    (∀ i : Word, s.mem.lowestFreeId = some i → u.reg b' = (if s.reg c < i then s.reg c else i)) ∧
    (s.mem.lowestFreeId = none → u.reg b' = s.reg c)) ∧
  (∀ (a b c a' b' c' : RegIdx) (s t u : State), s.status = .running →
    exec (.alloc a b c) s = .next t → t.status = .running →
    exec (.alloc a' b' c') t = .next u → u.status = .running →
    t.reg b ≠ 0 ∧ t.reg b < u.reg b' ∧ s.mem.allocated (u.reg b') = false ∧
    ∀ j : Word, t.reg b < j → j < u.reg b' → s.mem.allocated j = true)

/-- With a finite HEAP_WORDS_MAX, the ALLOC or the LOADPROG copy that would exceed it faults AllocationExhausted and changes
nothing. The spec's own decision D10 (log entry 5). -/
def Obligations.FiniteStorageExhausts : Prop :=
  (∀ (a b c : RegIdx) (s : State) (most : Nat), s.params.heapWordsMax = some most →
    most < s.mem.totalWords + (s.reg c).toNat →
    ∃ t, exec (.alloc a b c) s = .next t ∧ FaultedWith .allocationExhausted (s.pc + 1) s t) ∧
  (∀ (a b c : RegIdx) (s : State) (most : Nat) (n0 n : Word), s.mem.wf →
    s.params.heapWordsMax = some most → s.reg b ≠ 0 →
    s.mem.lenOf 0 = some n0 → s.mem.lenOf (s.reg b) = some n →
    most + n0.toNat < s.mem.totalWords + n.toNat →
    ∃ t, exec (.loadprog a b c) s = .next t ∧ FaultedWith .allocationExhausted (s.pc + 1) s t)

/-! ## Input and output -/

/-- OUT emits the byte in `x[C]` when it is at most 255 and the boundary accepts it; above 255 it faults UndefinedBehavior and emits
nothing; a failed boundary is IOError. How the boundary's answers are held (log entry 9), and that a failed answer stays where it was
(log entry 11; R204 leaves it to the host), are the model's choices; the finger in the diagnostic is the spec's own decision D8. -/
def Obligations.OutEmitsByteOrFaults : Prop :=
  ∀ (a b c : RegIdx) (s : State),
    ((s.reg c).toNat ≤ 255 → s.outAnswers.head? ≠ some .failed →
      ∃ t, exec (.out a b c) s = .next t ∧
        (∃ e : Byte, e.toNat = (s.reg c).toNat ∧ t.trace = s.trace ++ [e]) ∧
        t.input = s.input ∧ t.outAnswers = s.outAnswers.tail ∧
        RegsSame s t ∧ t.pc = s.pc + 1 ∧ SameMemory s t ∧ SameControl s t) ∧
    (255 < (s.reg c).toNat →
      ∃ t, exec (.out a b c) s = .next t ∧ FaultedWith .undefinedBehavior (s.pc + 1) s t) ∧
    ((s.reg c).toNat ≤ 255 → s.outAnswers.head? = some .failed →
      ∃ t, exec (.out a b c) s = .next t ∧ FaultedWith .ioError (s.pc + 1) s t)

/-- IN delivers the next byte zero-extended, the next of an infinite INPUT too, or all ones at the end of input; a failed boundary is
IOError; while the host has not answered nothing changes and the machine stays where it is. How the boundary's answers are held (log
entries 7 and 8), and that a failed answer stays where it was (log entry 11; R204 leaves it to the host), are the model's choices; the
finger in the diagnostic is the spec's own decision D8. -/
def Obligations.InDeliversByteOrEndOfInput : Prop :=
  ∀ (a b c : RegIdx) (s : State),
    (∀ (e : Byte) (rest : List InputAnswer), s.input.answers = .byte e :: rest →
      ∃ t, exec (.inp a b c) s = .next t ∧ (t.reg c).toNat = e.toNat ∧
        t.input = { s.input with answers := rest } ∧ RegsSameExcept c s t ∧ t.pc = s.pc + 1 ∧
        SameMemory s t ∧ t.trace = s.trace ∧ t.outAnswers = s.outAnswers ∧ SameControl s t) ∧
    (∀ i k : Nat, s.input.answers = [] → s.input.tail = .endless i k →
      ∃ t, exec (.inp a b c) s = .next t ∧ (t.reg c).toNat = (Config.endlessInput i k).toNat ∧
        t.input = { s.input with tail := .endless i (k + 1) } ∧ RegsSameExcept c s t ∧ t.pc = s.pc + 1 ∧
        SameMemory s t ∧ t.trace = s.trace ∧ t.outAnswers = s.outAnswers ∧ SameControl s t) ∧
    (s.input.answers.head? = some .endOfInput ∨ (s.input.answers = [] ∧ s.input.tail = .exhausted) →
      ∃ t, exec (.inp a b c) s = .next t ∧ (t.reg c).toNat = 2 ^ 32 - 1 ∧
        t.input = { s.input with answers := s.input.answers.tail } ∧ RegsSameExcept c s t ∧
        t.pc = s.pc + 1 ∧ SameMemory s t ∧ t.trace = s.trace ∧ t.outAnswers = s.outAnswers ∧
        SameControl s t) ∧
    (s.input.answers.head? = some .failed →
      ∃ t, exec (.inp a b c) s = .next t ∧ FaultedWith .ioError (s.pc + 1) s t) ∧
    (s.input.answers = [] → s.input.tail = .silent → exec (.inp a b c) s = .next s)

/-- End of input stays: once the boundary has answered it, every step keeps the source at its end, and an IN that does not fault
writes all ones. The spec's own decision D12, and a condition on the source here (log entry 7). -/
def Obligations.EndOfInputStays : Prop :=
  (∀ src rest : InputSource, src.wf = true → src.take = .endOfInput rest → rest.ended = true) ∧
  (∀ s t : State, s.input.ended = true → step s = .next t → t.input.ended = true) ∧
  (∀ (a b c : RegIdx) (s : State), s.input.ended = true →
    ∃ t, exec (.inp a b c) s = .next t ∧ (t.status = .faulted ∨ (t.reg c).toNat = 2 ^ 32 - 1))

/-! ## Control -/

/-- R190, HALT: Halted, the finger past the HALT, nothing else changed, and no further step has a next state. -/
def Obligations.HaltEndsRun : Prop :=
  ∀ (a b c : RegIdx) (s : State),
    (encode (.halt 0 0 0)).toNat = 0x70000000 ∧
    ∃ t, exec (.halt a b c) s = .next t ∧ t.status = .halted ∧ t.pc = s.pc + 1 ∧
      RegsSame s t ∧ SameMemory s t ∧ SameIo s t ∧ t.diag = s.diag ∧ t.params = s.params ∧
      t.openCount = s.openCount ∧ ∀ u : State, step t ≠ .next u

/-- LOADPROG: a jump to `x[C]` when `x[B]` is 0; with `x[B]` allocated and the storage sufficing, array 0 becomes a copy of array `x[B]`
first; a non-zero identifier that is not allocated faults. The fault is the spec's own decision D6, and the premise on storage its
decision D10 (log entry 5). -/
def Obligations.LoadProgramJumpsOrSwaps : Prop :=
  ∀ (a b c : RegIdx) (s : State),
    (s.reg b = 0 → ∃ t, exec (.loadprog a b c) s = .next t ∧ t.pc = s.reg c ∧
      RegsSame s t ∧ SameMemory s t ∧ SameIo s t ∧ SameControl s t) ∧
    (∀ n : Word, s.reg b ≠ 0 → s.mem.lenOf (s.reg b) = some n →
      (∀ m : Memory, s.mem.copyTo0 (s.reg b) = some m → storageFits s.params m = true) →
      ∃ t, exec (.loadprog a b c) s = .next t ∧ t.pc = s.reg c ∧
        t.mem.lenOf 0 = some n ∧
        (∀ off : Word, t.mem.read 0 off = s.mem.read (s.reg b) off) ∧
        (∀ j : Word, j ≠ 0 → SameArray j s.mem t.mem) ∧
        RegsSame s t ∧ SameIo s t ∧ SameControl s t) ∧
    (s.reg b ≠ 0 → s.mem.allocated (s.reg b) = false →
      ∃ t, exec (.loadprog a b c) s = .next t ∧ FaultedWith .outOfBoundsAccess (s.pc + 1) s t)

/-- R69: after a LOADPROG copy, array 0 has the length and the platters of the source and nothing else of what it was; the source is
unchanged; and a store into either array never changes what is read of the other. -/
def Obligations.LoadedProgramIsIndependentCopy : Prop :=
  ∀ (a b c : RegIdx) (s t : State), s.status = .running → s.reg b ≠ 0 →
    exec (.loadprog a b c) s = .next t → t.status = .running →
    t.mem.lenOf 0 = s.mem.lenOf (s.reg b) ∧
    (∀ off : Word, t.mem.read 0 off = s.mem.read (s.reg b) off) ∧
    SameArray (s.reg b) s.mem t.mem ∧ t.mem.allocated (s.reg b) = true ∧
    (∀ (off v : Word) (m : Memory), t.mem.write (s.reg b) off v = some m → SameArray 0 t.mem m) ∧
    (∀ (off v : Word) (m : Memory), t.mem.write 0 off v = some m → SameArray (s.reg b) t.mem m)

/-- A conditional jump made of CMOV and LOADPROG with a zero identifier (derived in the spec, R194): the finger goes to `x[f]` when the
tested register is not 0 and to the old `x[e]` when it is. -/
def Obligations.CmovThenLoadProgramBranches : Prop :=
  ∀ (e f k z a : RegIdx) (s : State), s.reg z = 0 → z ≠ e →
    ∃ t u, exec (.cmov e f k) s = .next t ∧ exec (.loadprog a z e) t = .next u ∧
      u.pc = (if s.reg k = 0 then s.reg e else s.reg f) ∧ SameMemory s u ∧ SameIo s u ∧
      RegsSameExcept e s u ∧ SameControl s u

/-- Opcodes 14 and 15 take DecodeError with the finger at the invalid platter (the spec's own decision D8 for the finger). -/
def Obligations.IllegalOpcodesFaultInPlace : Prop :=
  ∀ s : State,
    (∃ t, exec .illegal14 s = .next t ∧ FaultedWith .decodeError s.pc s t) ∧
    (∃ t, exec .illegal15 s = .next t ∧ FaultedWith .decodeError s.pc s t)

/-- The codes of the run status and of the fault kinds at the status boundary, the spec's own decisions D8 and D9. -/
def Obligations.StatusAndFaultCodes : Prop :=
  Status.running.code.toNat = 0 ∧ Status.halted.code.toNat = 1 ∧ Status.faulted.code.toNat = 2 ∧
  FaultKind.decodeError.code.toNat = 0 ∧ FaultKind.outOfBoundsAccess.code.toNat = 1 ∧
  FaultKind.divisionByZero.code.toNat = 2 ∧ FaultKind.allocationExhausted.code.toNat = 3 ∧
  FaultKind.ioError.code.toNat = 4 ∧ FaultKind.undefinedBehavior.code.toNat = 5

/-! ## Reset and program load -/

/-- Reset with a PROGRAM of at most 2^32 - 1 words leaves the state of R40 and R242. That the registers are 0 and the finger is 0 are
the spec's own decisions D1 and D2 (log entry 20). -/
def Obligations.LoadLeavesResetState : Prop :=
  ∀ (program : List Word) (input : InputSource) (outAnswers : List OutputAnswer) (params : Params),
    program.length ≤ 2 ^ 32 - 1 →
    ∃ s, State.load program input outAnswers params = some s ∧
      (∀ r : RegIdx, s.reg r = 0) ∧ s.pc = 0 ∧ s.status = .running ∧
      (∃ n : Word, s.mem.lenOf 0 = some n ∧ n.toNat = program.length) ∧
      (∀ (k : Nat) (h : k < program.length), s.mem.read 0 (BitVec.ofNat 32 k) = some program[k]) ∧
      (∀ id : Word, s.mem.allocated id = true ↔ id = 0) ∧
      s.trace = [] ∧ s.input = input ∧ s.outAnswers = outAnswers ∧ s.params = params

/-- The first ALLOC of a run returns 1, whatever ran before it and whatever its capacity (derived in the spec, R36 and R250): (a) after
reset only identifier 0 is allocated and the heap holds the platters of the program; (b) a step of any other operation, or one that fetches
nothing, keeps it so, and a canonical heap's number of platters with it; (c) in every such state an ALLOC that the storage suffices for (HEAP_WORDS_MAX, the spec's own decision D10, log
entry 5) answers a next state, and returns 1. -/
def Obligations.FirstAllocReturnsOne : Prop :=
  (∀ (program : List Word) (input : InputSource) (outAnswers : List OutputAnswer) (params : Params)
    (s : State), State.load program input outAnswers params = some s →
    (∀ id : Word, s.mem.allocated id = true ↔ id = 0) ∧ s.mem.totalWords = program.length) ∧
  (∀ s t : State, (∀ id : Word, s.mem.allocated id = true ↔ id = 0) → step s = .next t →
    (∀ w, s.fetch = some w → w.toNat / 2 ^ 28 ≠ 8) →
    (∀ id : Word, t.mem.allocated id = true ↔ id = 0) ∧
    (s.mem.wf → t.mem.totalWords = s.mem.totalWords)) ∧
  (∀ (a b c : RegIdx) (s : State), (∀ id : Word, s.mem.allocated id = true ↔ id = 0) →
    (∀ most : Nat, s.params.heapWordsMax = some most →
      s.mem.totalWords + (s.reg c).toNat ≤ most) →
    ∃ t, exec (.alloc a b c) s = .next t ∧ t.reg b = 1 ∧ t.mem.lenOf 1 = some (s.reg c))

/-- The empty program is legal and faults at its first fetch (the spec's own decisions D5 and D11). -/
def Obligations.EmptyProgramFaultsAtFirstFetch : Prop :=
  State.load [] State.reset.input [] Config.defaultParams = some State.reset ∧
  ∃ t, step State.reset = .next t ∧ FaultedWith .outOfBoundsAccess 0 State.reset t ∧
    t.diag.hasInsn = false

/-- R244: the words of a binary scroll; a file of 4n bytes gives n words. -/
def Obligations.BinaryScrollIsBigEndian : Prop :=
  (∀ bytes : List Byte, bytes.length % 4 = 0 →
    ∃ ws, binaryScroll bytes = some ws ∧ bytes.length = 4 * ws.length ∧
      ∀ (k : Nat) (h : k < ws.length) (h0 : 4 * k + 3 < bytes.length),
        (ws[k]).toNat = bytes[4 * k].toNat * 2 ^ 24 + bytes[4 * k + 1].toNat * 2 ^ 16 +
          bytes[4 * k + 2].toNat * 2 ^ 8 + bytes[4 * k + 3].toNat)

/-- R245: the words of a text scroll; character k of a line is bit 31 - k; the rule's own example. -/
def Obligations.TextScrollIsMostSignificantFirst : Prop :=
  (∀ lines : List (List Char), (∀ line ∈ lines, textLineOk line = true) →
    ∃ ws, textScroll lines = some ws ∧ ws.length = lines.length ∧
      ∀ (i k : Nat) (h : i < ws.length) (h' : i < lines.length) (hk : k < (lines[i]).length),
        (ws[i]).getLsbD (31 - k) = (lines[i][k] == '1')) ∧
  textScroll ["11010000000000000000000001001000".toList] = some [0xD0000048]

/-! ## Invariants -/

/-- The invariant holds at reset. -/
def Obligations.ResetSatisfiesInvariant : Prop := State.reset.Inv

/-- Reset with any PROGRAM establishes the invariant, for an input source that R187 allows and a storage that holds the program. -/
def Obligations.LoadEstablishesInvariant : Prop :=
  ∀ (program : List Word) (input : InputSource) (outAnswers : List OutputAnswer) (params : Params)
    (s : State),
    State.load program input outAnswers params = some s → input.wf = true →
    (∀ most : Nat, params.heapWordsMax = some most → program.length ≤ most) → s.Inv

/-- Every step keeps the invariant: the heap stays canonical, with distinct identifiers of at most ID_MAX and offsets below the
lengths; array 0 exists; the source stays one R187 allows; the storage bound holds. -/
def Obligations.StepKeepsInvariant : Prop :=
  ∀ s t : State, s.Inv → step s = .next t → t.Inv

/-- R35, the heap invariants, after reset and through every step: (a) identifier 0 is always allocated; (b) identifiers are pairwise
distinct; (c) an identifier other than 0 appears only as the one an ALLOC returned and disappears only by ABANDON of it; (d) a write
through one identifier never changes what is read through another. -/
def Obligations.HeapInvariantsHold : Prop :=
  (∀ (program : List Word) (input : InputSource) (outAnswers : List OutputAnswer) (params : Params)
    (s : State), State.load program input outAnswers params = some s →
    s.mem.wf ∧ ∀ id : Word, s.mem.allocated id = true ↔ id = 0) ∧
  (∀ s t : State, s.mem.wf → s.mem.allocated 0 = true → step s = .next t →
    t.mem.wf ∧ t.mem.allocated 0 = true ∧ (t.mem.arrays.map Prod.fst).Nodup) ∧
  (∀ (s t : State) (id : Word), id ≠ 0 → step s = .next t →
    s.mem.allocated id = false → t.mem.allocated id = true →
    ∃ w, s.fetch = some w ∧ w.toNat / 2 ^ 28 = 8 ∧ t.reg (fieldB w) = id) ∧
  (∀ (s t : State) (id : Word), step s = .next t →
    s.mem.allocated id = true → t.mem.allocated id = false →
    ∃ w, s.fetch = some w ∧ w.toNat / 2 ^ 28 = 9 ∧ s.reg (fieldC w) = id) ∧
  (∀ (m m' : Memory) (id j off v : Word), m.write id off v = some m' → j ≠ id → SameArray j m m')

/-- The length of an array other than array 0 never changes while it is allocated, and a step changes platters of it only by an
AMEND that names it. -/
def Obligations.ArrayLengthsAreImmutable : Prop :=
  ∀ (s t : State) (id : Word), id ≠ 0 → step s = .next t →
    s.mem.allocated id = true → t.mem.allocated id = true →
    t.mem.lenOf id = s.mem.lenOf id ∧
    (SameArray id s.mem t.mem ∨
      ∃ w, s.fetch = some w ∧ w.toNat / 2 ^ 28 = 2 ∧ s.reg (fieldA w) = id)

/-- What the host's `withFetchWord` places is what the next step runs (the model's own device, log entries 6 and 16). -/
def Obligations.PlacedWordIsFetchedNext : Prop :=
  ∀ (s : State) (nbits w : Nat),
    (s.withFetchWord nbits w).fetch = some (BitVec.ofNat 32 (w % 2 ^ nbits)) ∧
    step (s.withFetchWord nbits w) =
      exec (decode (BitVec.ofNat 32 (w % 2 ^ nbits))) (s.withFetchWord nbits w)

/-! ## Runs and their input -/

/-- The first n steps of a run depend on the first n answers of the input boundary only: with the same n answers (or more) ahead of
any two sources, n steps give the same state but for the source that is left. So the lists of answers that State holds show every
finite part of a run with an oracle of R186, an infinite one among them (log entry 7). -/
def Obligations.RunDependsOnlyOnAnswersRead : Prop :=
  ∀ (n : Nat) (ahead : List InputAnswer) (src src' : InputSource) (s : State), n ≤ ahead.length →
    (runSteps n (s.setInput { src with answers := ahead ++ src.answers })).map (·.setInput src) =
    (runSteps n (s.setInput { src' with answers := ahead ++ src'.answers })).map (·.setInput src)
end

