-- ==== Sys2Proof/Laws/Assoc.lean ====
section
/-! SUPPORT. Laws of the sparse maps: reading after a write and after a removal, and the canonical order. -/

namespace Sys2Proof.Machine

variable {α : Type}

@[simp] theorem assocFind_put_self (k : Nat) (v : α) (l : List (Nat × α)) :
    assocFind k (assocPut k v l) = some v := by
  induction l with
  | nil => simp [assocPut, assocFind]
  | cons e l ih =>
    obtain ⟨j, u⟩ := e
    simp only [assocPut]
    split
    · rename_i h
      have : j ≠ k := by omega
      simp [assocFind, this, ih]
    · split <;> simp [assocFind]

theorem assocFind_put_other (k j : Nat) (v : α) (l : List (Nat × α)) (h : j ≠ k) :
    assocFind j (assocPut k v l) = assocFind j l := by
  induction l with
  | nil => simp [assocPut, assocFind, Ne.symm h]
  | cons e l ih =>
    obtain ⟨i, u⟩ := e
    simp only [assocPut]
    split
    · simp [assocFind, ih]
    · split
      · rename_i h2
        subst h2
        simp [assocFind, Ne.symm h]
      · simp [assocFind, Ne.symm h]

@[simp] theorem assocFind_erase_self (k : Nat) (l : List (Nat × α)) :
    assocFind k (assocErase k l) = none := by
  induction l with
  | nil => rfl
  | cons e l ih =>
    simp only [assocErase, List.filter_cons] at ih ⊢
    by_cases h : e.1 = k <;> simp_all [assocFind]

theorem assocFind_erase_other (k j : Nat) (l : List (Nat × α)) (h : j ≠ k) :
    assocFind j (assocErase k l) = assocFind j l := by
  induction l with
  | nil => rfl
  | cons e l ih =>
    simp only [assocErase, List.filter_cons] at ih ⊢
    by_cases h1 : e.1 = k
    · have : e.1 ≠ j := fun h2 => h (h2 ▸ h1)
      simp_all [assocFind]
    · by_cases h2 : e.1 = j <;> simp_all [assocFind]

theorem mem_of_assocFind {k : Nat} {v : α} {l : List (Nat × α)} (h : assocFind k l = some v) :
    (k, v) ∈ l := by
  induction l with
  | nil => simp [assocFind] at h
  | cons e l ih =>
    obtain ⟨j, u⟩ := e
    simp only [assocFind] at h
    split at h
    · simp_all
    · exact List.mem_cons_of_mem _ (ih h)

/-- In rising order, what is listed is what is found. -/
theorem assocFind_of_mem {k : Nat} {v : α} {l : List (Nat × α)} (hs : assocSorted l)
    (h : (k, v) ∈ l) : assocFind k l = some v := by
  induction l with
  | nil => simp at h
  | cons e l ih =>
    obtain ⟨j, u⟩ := e
    obtain ⟨h1, h2⟩ := List.pairwise_cons.1 hs
    rcases List.mem_cons.1 h with h | h
    · cases h; simp [assocFind]
    · have : j < k := h1 _ h
      have : j ≠ k := by omega
      simp [assocFind, this, ih h2 h]

theorem mem_assocPut {k : Nat} {v : α} {l : List (Nat × α)} {e : Nat × α}
    (h : e ∈ assocPut k v l) : e = (k, v) ∨ e ∈ l := by
  induction l with
  | nil => simp_all [assocPut]
  | cons f l ih =>
    simp only [assocPut] at h
    split at h
    · rcases List.mem_cons.1 h with h | h
      · exact .inr (h ▸ List.mem_cons_self)
      · exact (ih h).imp_right (List.mem_cons_of_mem _)
    · split at h
      · exact (List.mem_cons.1 h).imp_right (List.mem_cons_of_mem _)
      · exact List.mem_cons.1 h

theorem mem_assocErase {k : Nat} {l : List (Nat × α)} {e : Nat × α} (h : e ∈ assocErase k l) :
    e ∈ l := List.mem_of_mem_filter h

theorem assocSorted_put (k : Nat) (v : α) (l : List (Nat × α)) (h : assocSorted l) :
    assocSorted (assocPut k v l) := by
  induction l with
  | nil => simp [assocPut]
  | cons e l ih =>
    obtain ⟨j, u⟩ := e
    obtain ⟨h1, h2⟩ := List.pairwise_cons.1 h
    simp only [assocPut]
    split
    · rename_i hj
      refine List.pairwise_cons.2 ⟨fun f hf => ?_, ih h2⟩
      rcases mem_assocPut hf with rfl | hf
      · exact hj
      · exact h1 f hf
    · split
      · rename_i hj
        subst hj
        exact List.pairwise_cons.2 ⟨fun f hf => h1 f hf, h2⟩
      · refine List.pairwise_cons.2 ⟨fun f hf => ?_, h⟩
        rcases List.mem_cons.1 hf with rfl | hf
        · show k < j; omega
        · have : j < f.1 := h1 f hf
          show k < f.1; omega

theorem assocSorted_erase (k : Nat) (l : List (Nat × α)) (h : assocSorted l) :
    assocSorted (assocErase k l) := List.Pairwise.filter _ h

/-- The keys of the list are the keys that are found. -/
theorem assocFind_isSome_iff (k : Nat) (l : List (Nat × α)) :
    (assocFind k l).isSome ↔ k ∈ l.map Prod.fst := by
  induction l with
  | nil => simp [assocFind]
  | cons e l ih =>
    by_cases h : e.1 = k
    · simp [assocFind, h]
    · simp [assocFind, h, Ne.symm h, ih]

/-- What the ascending scan finds: every key it passed is listed. -/
theorem firstFreeFrom_passed (l : List (Nat × α)) (fuel k j : Nat) (h1 : k ≤ j)
    (h2 : j < firstFreeFrom l fuel k) : (assocFind j l).isSome := by
  induction fuel generalizing k with
  | zero => simp [firstFreeFrom] at h2; omega
  | succ n ih =>
    simp only [firstFreeFrom] at h2
    split at h2
    · by_cases h : j = k
      · subst h; assumption
      · exact ih (k + 1) (by omega) h2
    · omega

theorem firstFreeFrom_ge (l : List (Nat × α)) (fuel k : Nat) : k ≤ firstFreeFrom l fuel k := by
  induction fuel generalizing k with
  | zero => simp [firstFreeFrom]
  | succ n ih =>
    simp only [firstFreeFrom]
    split
    · exact (by omega : k ≤ k + 1).trans (ih (k + 1))
    · exact le_refl k

/-- The scan stops at a listed key only when its fuel is used up. -/
theorem firstFreeFrom_stop (l : List (Nat × α)) (fuel k : Nat) :
    assocFind (firstFreeFrom l fuel k) l = none ∨ firstFreeFrom l fuel k = k + fuel := by
  induction fuel generalizing k with
  | zero => simp [firstFreeFrom]
  | succ n ih =>
    simp only [firstFreeFrom]
    split
    · rcases ih (k + 1) with h | h
      · exact .inl h
      · exact .inr (by omega)
    · rename_i h
      exact .inl (by simpa using h)

/-- With as much fuel as there are entries, the scan ends at a key that is not listed. -/
theorem firstFreeFrom_free (l : List (Nat × α)) (k : Nat) :
    assocFind (firstFreeFrom l l.length k) l = none := by
  rcases firstFreeFrom_stop l l.length k with h | h
  · exact h
  · by_contra hne
    have hin : ∀ j ∈ Finset.Icc k (k + l.length), j ∈ (l.map Prod.fst).toFinset := by
      intro j hj
      rw [List.mem_toFinset, ← assocFind_isSome_iff]
      obtain ⟨h1, h2⟩ := Finset.mem_Icc.1 hj
      by_cases hj' : j = k + l.length
      · subst hj'
        rw [h] at hne
        exact Option.isSome_iff_ne_none.2 hne
      · exact firstFreeFrom_passed l l.length k j h1 (by omega)
    have h1 := Finset.card_le_card hin
    have h2 := List.toFinset_card_le (l.map Prod.fst)
    simp at h1 h2
    omega

end Sys2Proof.Machine
end

