-- ==== Sys2Proof/Laws/Decode.lean ====
section
/-! SUPPORT. The fields of the encoder's words, and the opcode of a decoded platter. -/

namespace Sys2Proof

@[simp] theorem opField_encRegular (op : BitVec 4) (a b c : RegIdx) :
    opField (encRegular op a b c) = op := by
  ext i hi
  simp only [opField, encRegular, BitVec.getElem_extractLsb', BitVec.getLsbD_append]
  interval_cases i <;> simp [← BitVec.getLsbD_eq_getElem]

@[simp] theorem fieldA_encRegular (op : BitVec 4) (a b c : RegIdx) : fieldA (encRegular op a b c) = a := by
  ext i hi
  simp only [fieldA, encRegular, BitVec.getElem_extractLsb', BitVec.getLsbD_append]
  interval_cases i <;> simp [← BitVec.getLsbD_eq_getElem]

@[simp] theorem fieldB_encRegular (op : BitVec 4) (a b c : RegIdx) : fieldB (encRegular op a b c) = b := by
  ext i hi
  simp only [fieldB, encRegular, BitVec.getElem_extractLsb', BitVec.getLsbD_append]
  interval_cases i <;> simp [← BitVec.getLsbD_eq_getElem]

@[simp] theorem fieldC_encRegular (op : BitVec 4) (a b c : RegIdx) : fieldC (encRegular op a b c) = c := by
  ext i hi
  simp only [fieldC, encRegular, BitVec.getElem_extractLsb', BitVec.getLsbD_append]
  interval_cases i <;> simp [← BitVec.getLsbD_eq_getElem]

@[simp] theorem opField_encOrth (a : RegIdx) (v : Imm) : opField (encOrth a v) = 13 := by
  ext i hi
  simp only [opField, encOrth, BitVec.getElem_extractLsb', BitVec.getLsbD_append]
  interval_cases i <;> simp

@[simp] theorem orthFieldA_encOrth (a : RegIdx) (v : Imm) : orthFieldA (encOrth a v) = a := by
  ext i hi
  simp only [orthFieldA, encOrth, BitVec.getElem_extractLsb', BitVec.getLsbD_append]
  interval_cases i <;> simp [← BitVec.getLsbD_eq_getElem]

@[simp] theorem orthValue_encOrth (a : RegIdx) (v : Imm) : orthValue (encOrth a v) = v := by
  ext i hi
  simp only [orthValue, encOrth, BitVec.getElem_extractLsb', BitVec.getLsbD_append]
  simp [hi, BitVec.getLsbD_eq_getElem]

/-- The selection is by the opcode value alone (`40_execution_cycle.md` R125). -/
theorem decode_opcode (w : Word) : (decode w).opcode = opField w := by
  unfold decode
  generalize opField w = op
  obtain ⟨⟨n, hn⟩⟩ := op
  interval_cases n <;> rfl

end Sys2Proof
end

