-- ==== Sys2Proof/Laws/Memory.lean ====
section
/-! SUPPORT. Laws of the heap operations: what each can do, said once, and that each keeps the canonical form. -/

namespace Sys2Proof.Machine

open Sys2Proof

/-! Arrays. -/

@[simp] theorem set_len (p : PlatterArray) (off : Nat) (v : Word) : (p.set off v).len = p.len := rfl

@[simp] theorem set_get_self (p : PlatterArray) (off : Nat) (v : Word) : (p.set off v).get off = v := by
  by_cases h : v = 0#32 <;> simp [PlatterArray.set, PlatterArray.get, h]

theorem set_get_other (p : PlatterArray) (off o : Nat) (v : Word) (h : o ≠ off) :
    (p.set off v).get o = p.get o := by
  by_cases h0 : v = 0#32 <;>
    simp [PlatterArray.set, PlatterArray.get, h0, assocFind_put_other _ _ _ _ h,
      assocFind_erase_other _ _ _ h]

@[simp] theorem zeroed_len (cap : Word) : (PlatterArray.zeroed cap).len = cap := rfl

@[simp] theorem zeroed_get (cap : Word) (off : Nat) : (PlatterArray.zeroed cap).get off = 0 := rfl

theorem zeroed_wf (cap : Word) : (PlatterArray.zeroed cap).wf := by
  simp [PlatterArray.wf, PlatterArray.zeroed]

theorem set_wf (p : PlatterArray) (off : Nat) (v : Word) (h : p.wf) (ho : off < p.len.toNat) :
    (p.set off v).wf := by
  obtain ⟨hs, hc⟩ := h
  by_cases h0 : v = 0
  · simp only [PlatterArray.set, h0, if_true]
    exact ⟨assocSorted_erase _ _ hs, fun e he => hc e (mem_assocErase he)⟩
  · simp only [PlatterArray.set, h0, if_false]
    refine ⟨assocSorted_put _ _ _ hs, fun e he => ?_⟩
    rcases mem_assocPut he with rfl | he
    · exact ⟨ho, h0⟩
    · exact hc e he

/-! The arbiter. -/

theorem toNat_ne {i j : Word} (h : i ≠ j) : i.toNat ≠ j.toNat :=
  fun e => h (BitVec.eq_of_toNat_eq e)

theorem allocated_iff (m : Memory) (id : Word) :
    m.allocated id = true ↔ ∃ p, m.arrayAt id = some p := by
  simp [Memory.allocated, Option.isSome_iff_exists]

theorem lenOf_eq_some (m : Memory) (id n : Word) :
    m.lenOf id = some n ↔ ∃ p, m.arrayAt id = some p ∧ p.len = n := by
  simp [Memory.lenOf]

/-- What a read can answer (`20_memory.md` R62, R63). -/
theorem read_eq_some (m : Memory) (id off v : Word) :
    m.read id off = some v ↔ ∃ p, m.arrayAt id = some p ∧ off < p.len ∧ p.get off.toNat = v := by
  unfold Memory.read
  split
  · rename_i p hp
    simp [hp]
  · rename_i hp
    simp [hp]

theorem read_eq_none (m : Memory) (id off : Word) :
    m.read id off = none ↔ ∀ p, m.arrayAt id = some p → p.len ≤ off := by
  unfold Memory.read
  split
  · rename_i p hp
    simp [hp]
  · rename_i hp
    simp [hp]

/-- What a write can answer (`20_memory.md` R62, R64). -/
theorem write_cases (m : Memory) (id off v : Word) :
    (m.write id off v = none ∧ ∀ p, m.arrayAt id = some p → p.len ≤ off) ∨
    (∃ p, m.arrayAt id = some p ∧ off < p.len ∧
      m.write id off v = some { arrays := assocPut id.toNat (p.set off.toNat v) m.arrays }) := by
  unfold Memory.write
  split
  · rename_i p hp
    by_cases h : off < p.len
    · exact .inr ⟨p, hp, h, by simp [h]⟩
    · refine .inl ⟨by simp [h], fun q hq => ?_⟩
      rw [hp] at hq
      cases hq
      exact BitVec.not_lt.1 h
  · rename_i hp
    exact .inl ⟨rfl, fun q hq => by rw [hp] at hq; simp at hq⟩

/-! The array that each identifier names after each operation. -/

@[simp] theorem arrayAt_put_self (m : Memory) (id : Word) (p : PlatterArray) :
    Memory.arrayAt { arrays := assocPut id.toNat p m.arrays } id = some p :=
  assocFind_put_self _ _ _

theorem arrayAt_put_other (m : Memory) (id j : Word) (p : PlatterArray) (h : j ≠ id) :
    Memory.arrayAt { arrays := assocPut id.toNat p m.arrays } j = m.arrayAt j :=
  assocFind_put_other _ _ _ _ (toNat_ne h)

@[simp] theorem alloc_arrayAt_self (m : Memory) (id cap : Word) :
    (m.alloc id cap).arrayAt id = some (PlatterArray.zeroed cap) := arrayAt_put_self _ _ _

theorem alloc_arrayAt_other (m : Memory) (id cap j : Word) (h : j ≠ id) :
    (m.alloc id cap).arrayAt j = m.arrayAt j := arrayAt_put_other _ _ _ _ h

@[simp] theorem free_arrayAt_self (m : Memory) (id : Word) : (m.free id).arrayAt id = none := by
  simp [Memory.arrayAt, Memory.free]

theorem free_arrayAt_other (m : Memory) (id j : Word) (h : j ≠ id) :
    (m.free id).arrayAt j = m.arrayAt j := assocFind_erase_other _ _ _ (toNat_ne h)

/-- What the copy to array 0 can answer (`20_memory.md` R69). -/
theorem copyTo0_cases (m : Memory) (id : Word) :
    (m.arrayAt id = none ∧ m.copyTo0 id = none) ∨
    (∃ p m', m.arrayAt id = some p ∧ m.copyTo0 id = some m' ∧ m'.arrayAt 0 = some p ∧
      m'.arrays = assocPut 0 p m.arrays ∧ ∀ j, j ≠ 0 → m'.arrayAt j = m.arrayAt j) := by
  unfold Memory.copyTo0
  split
  · rename_i p hp
    exact .inr ⟨p, _, hp, rfl, arrayAt_put_self m 0 p, rfl, fun j hj => arrayAt_put_other m 0 j p hj⟩
  · rename_i hp
    exact .inl ⟨hp, rfl⟩

/-- The lowest free identifier: not 0, not allocated, and every smaller one but 0 is allocated
(`20_memory.md` R66). -/
theorem lowestFreeId_some {m : Memory} {id : Word} (h : m.lowestFreeId = some id) :
    id ≠ 0 ∧ m.arrayAt id = none ∧ ∀ j : Word, j ≠ 0 → j < id → m.allocated j = true := by
  simp only [Memory.lowestFreeId] at h
  split at h
  · rename_i hle
    have hle' : firstFreeFrom m.arrays m.arrays.length 1 < 2 ^ 32 := by
      simp only [Config.idMax] at hle; omega
    have hge := firstFreeFrom_ge m.arrays m.arrays.length 1
    have hid : id.toNat = firstFreeFrom m.arrays m.arrays.length 1 := by
      cases h; exact BitVec.toNat_ofNat _ _ ▸ Nat.mod_eq_of_lt hle'
    refine ⟨?_, ?_, ?_⟩
    · rintro rfl; simp at hid; omega
    · rw [Memory.arrayAt, hid]; exact firstFreeFrom_free _ _
    · intro j hj hlt
      have h1 : j.toNat ≠ 0 := fun e => hj (BitVec.eq_of_toNat_eq (by simpa using e))
      have h2 : j.toNat < id.toNat := hlt
      exact firstFreeFrom_passed m.arrays m.arrays.length 1 _ (by omega) (by omega)
  · simp at h

/-- Without a free identifier all but 0 are allocated (`20_memory.md` R66). -/
theorem lowestFreeId_none {m : Memory} (h : m.lowestFreeId = none) :
    ∀ j : Word, j ≠ 0 → m.allocated j = true := by
  simp only [Memory.lowestFreeId] at h
  split at h
  · simp at h
  · rename_i hgt
    intro j hj
    have h1 : j.toNat ≠ 0 := fun e => hj (BitVec.eq_of_toNat_eq (by simpa using e))
    have h2 := j.isLt
    simp only [Config.idMax] at hgt
    exact firstFreeFrom_passed m.arrays m.arrays.length 1 _ (by omega) (by omega)

/-- The lowest free identifier is determined by what it says. -/
theorem lowestFreeId_eq {m : Memory} {id : Word} (h0 : id ≠ 0) (h1 : m.arrayAt id = none)
    (h2 : ∀ j : Word, j ≠ 0 → j < id → m.allocated j = true) : m.lowestFreeId = some id := by
  cases h : m.lowestFreeId with
  | none =>
    have := lowestFreeId_none h id h0
    simp [Memory.allocated, h1] at this
  | some k =>
    obtain ⟨k0, k1, k2⟩ := lowestFreeId_some h
    rcases lt_trichotomy k.toNat id.toNat with hlt | heq | hgt
    · have := h2 k k0 hlt
      simp [Memory.allocated, k1] at this
    · rw [BitVec.eq_of_toNat_eq heq]
    · have := k2 id h0 hgt
      simp [Memory.allocated, h1] at this

/-! Every operation keeps the canonical form. -/

theorem put_wf (m : Memory) (id : Word) (p : PlatterArray) (h : m.wf) (hp : p.wf) :
    Memory.wf { arrays := assocPut id.toNat p m.arrays } := by
  refine ⟨assocSorted_put _ _ _ h.1, fun e he => ?_⟩
  rcases mem_assocPut he with rfl | he
  · have := id.isLt
    exact ⟨by simp only [Config.idMax]; omega, hp⟩
  · exact h.2 e he

theorem arrayAt_wf {m : Memory} {id : Word} {p : PlatterArray} (h : m.wf)
    (hp : m.arrayAt id = some p) : p.wf := (h.2 _ (mem_of_assocFind hp)).2

theorem write_wf {m m' : Memory} {id off v : Word} (h : m.wf) (hw : m.write id off v = some m') :
    m'.wf := by
  rcases write_cases m id off v with ⟨hn, -⟩ | ⟨p, hp, ho, he⟩
  · rw [hn] at hw; simp at hw
  · rw [he] at hw
    cases hw
    exact put_wf _ _ _ h (set_wf _ _ _ (arrayAt_wf h hp) ho)

theorem alloc_wf (m : Memory) (id cap : Word) (h : m.wf) : (m.alloc id cap).wf :=
  put_wf _ _ _ h (zeroed_wf cap)

theorem free_wf (m : Memory) (id : Word) (h : m.wf) : (m.free id).wf :=
  ⟨assocSorted_erase _ _ h.1, fun e he => h.2 e (mem_assocErase he)⟩

theorem copyTo0_wf {m m' : Memory} {id : Word} (h : m.wf) (hc : m.copyTo0 id = some m') : m'.wf := by
  rcases copyTo0_cases m id with ⟨-, hn⟩ | ⟨p, m2, hp, he, -, ha, -⟩
  · rw [hn] at hc; simp at hc
  · rw [he] at hc
    cases hc
    have := put_wf m 0 p h (arrayAt_wf h hp)
    rw [show (0 : Word).toNat = 0 from rfl, ← ha] at this
    exact this

theorem plant_wf (m : Memory) (off w : Word) (h : m.wf) (ho : off ≠ 0xFFFFFFFF) :
    (m.plant off w).wf := by
  have ho' : off.toNat + 1 < 2 ^ 32 := by
    have h1 := off.isLt
    have h2 : off.toNat ≠ 4294967295 := fun e => ho (BitVec.eq_of_toNat_eq (by simpa using e))
    omega
  have hp : ((m.arrayAt 0).getD (PlatterArray.zeroed 0)).wf := by
    cases ha : m.arrayAt 0 with
    | none => exact zeroed_wf 0
    | some p => exact arrayAt_wf h ha
  have hn : (off + 1).toNat = off.toNat + 1 := by
    rw [BitVec.toNat_add]; simp; omega
  simp only [Memory.plant]
  refine put_wf m 0 _ h (set_wf _ _ _ ?_ ?_)
  · split
    · exact hp
    · rename_i hlt
      refine ⟨hp.1, fun e he => ⟨?_, (hp.2 e he).2⟩⟩
      have h1 := (hp.2 e he).1
      have h2 : ¬ off.toNat < ((m.arrayAt 0).getD (PlatterArray.zeroed 0)).len.toNat := hlt
      simp only [hn]
      omega
  · split
    · rename_i hlt; exact hlt
    · show off.toNat < (off + 1).toNat
      omega

theorem reset_mem_wf : State.reset.mem.wf := by decide

/-! Storage (`20_memory.md` R71). -/

/-- Putting an array in a canonical heap replaces the old length in the sum. -/
theorem totalWords_put {l : List (Nat × PlatterArray)} {k : Nat} (p : PlatterArray) (hs : assocSorted l) :
    Memory.totalWords { arrays := assocPut k p l } + ((assocFind k l).map (fun q => q.len.toNat)).getD 0
      = Memory.totalWords { arrays := l } + p.len.toNat := by
  induction l with
  | nil => simp [assocPut, assocFind, Memory.totalWords]
  | cons e l ih =>
    obtain ⟨j, u⟩ := e
    obtain ⟨h1, h2⟩ := List.pairwise_cons.1 hs
    have ih := ih h2
    simp only [Memory.totalWords] at ih ⊢
    simp only [assocPut, assocFind]
    by_cases hjk : j = k
    · subst hjk
      simp
      omega
    · by_cases hlt : j < k
      · simp [hlt, hjk]
        omega
      · have hnone : assocFind k l = none := by
          cases hf : assocFind k l with
          | none => rfl
          | some v =>
            have : j < k := h1 _ (mem_of_assocFind hf)
            omega
        simp [hlt, hjk, hnone]
        omega

/-- A new array under a free identifier adds its length to the sum. -/
theorem totalWords_alloc (m : Memory) (id cap : Word) (h : m.arrayAt id = none) :
    (m.alloc id cap).totalWords = m.totalWords + cap.toNat := by
  have key : ∀ l : List (Nat × PlatterArray), assocFind id.toNat l = none →
      Memory.totalWords { arrays := assocPut id.toNat (PlatterArray.zeroed cap) l }
        = Memory.totalWords { arrays := l } + cap.toNat := by
    intro l
    induction l with
    | nil => simp [assocPut, Memory.totalWords]
    | cons e l ih =>
      intro h
      simp only [assocFind] at h
      split at h
      · simp at h
      · rename_i hne
        have := ih h
        simp only [Memory.totalWords] at *
        simp only [assocPut]
        by_cases hlt : e.1 < id.toNat
        · simp [hlt]; omega
        · simp [hlt, hne]; omega
  exact key _ h

/-- A store leaves the sum of the lengths. -/
theorem totalWords_write {m m' : Memory} {id off v : Word} (h : m.wf)
    (hw : m.write id off v = some m') : m'.totalWords = m.totalWords := by
  rcases write_cases m id off v with ⟨hn, -⟩ | ⟨p, hp, ho, he⟩
  · rw [hn] at hw; cases hw
  · rw [he] at hw; cases hw
    have := totalWords_put (k := id.toNat) (p.set off.toNat v) h.1
    have hp' : assocFind id.toNat m.arrays = some p := hp
    rw [hp'] at this
    simpa using this

/-- Releasing an array never makes the heap larger. -/
theorem totalWords_free_le (m : Memory) (id : Word) : (m.free id).totalWords ≤ m.totalWords := by
  simp only [Memory.totalWords, Memory.free, assocErase]
  exact List.Sublist.sum_le_sum ((List.filter_sublist).map _) (fun _ _ => Nat.zero_le _)

end Sys2Proof.Machine
end

