-- ==== Sys2Proof/Laws/Load.lean ====
section
/-! SUPPORT. What program load puts into array 0, and that it is canonical. -/

namespace Sys2Proof.Machine

open Sys2Proof

theorem cellsFrom_get (ws : List Word) (k j : Nat) :
    (assocFind j (cellsFrom k ws)).getD 0 = if k ≤ j then (ws[j - k]?).getD 0 else 0 := by
  induction ws generalizing k with
  | nil => simp [cellsFrom, assocFind]
  | cons w ws ih =>
    simp only [cellsFrom]
    have ih := ih (k + 1)
    by_cases hw : w = 0
    · rw [if_pos hw, ih]
      by_cases h1 : k + 1 ≤ j
      · rw [if_pos h1, if_pos (by omega), show j - k = (j - (k + 1)) + 1 by omega]; simp
      · rw [if_neg h1]
        by_cases h2 : k ≤ j
        · have : j - k = 0 := by omega
          simp [this, hw]
        · rw [if_neg h2]
    · rw [if_neg hw]
      simp only [assocFind]
      by_cases hk : k = j
      · subst hk; simp
      · rw [if_neg hk, ih]
        by_cases h1 : k + 1 ≤ j
        · rw [if_pos h1, if_pos (by omega), show j - k = (j - (k + 1)) + 1 by omega]; simp
        · rw [if_neg h1, if_neg (by omega)]

theorem cellsFrom_mem (ws : List Word) (k : Nat) :
    ∀ e ∈ cellsFrom k ws, k ≤ e.1 ∧ e.1 < k + ws.length ∧ e.2 ≠ 0 := by
  induction ws generalizing k with
  | nil => simp [cellsFrom]
  | cons w ws ih =>
    intro e he
    simp only [cellsFrom] at he
    split at he
    · have := ih (k + 1) e he
      exact ⟨by omega, by simp; omega, this.2.2⟩
    · rcases List.mem_cons.1 he with rfl | he
      · exact ⟨le_refl k, by simp, by assumption⟩
      · have := ih (k + 1) e he
        exact ⟨by omega, by simp; omega, this.2.2⟩

theorem cellsFrom_sorted (ws : List Word) (k : Nat) : assocSorted (cellsFrom k ws) := by
  induction ws generalizing k with
  | nil => simp [cellsFrom]
  | cons w ws ih =>
    simp only [cellsFrom]
    split
    · exact ih _
    · refine List.pairwise_cons.2 ⟨fun e he => ?_, ih _⟩
      have := cellsFrom_mem _ _ e he
      show k < e.1
      omega

theorem ofWords_len (ws : List Word) (h : ws.length ≤ 4294967295) :
    (PlatterArray.ofWords ws).len.toNat = ws.length := by
  show (BitVec.ofNat 32 ws.length).toNat = _
  rw [BitVec.toNat_ofNat]
  omega

theorem ofWords_get (ws : List Word) (j : Nat) (h : j < ws.length) :
    (PlatterArray.ofWords ws).get j = ws[j] := by
  have := cellsFrom_get ws 0 j
  simpa [PlatterArray.get, PlatterArray.ofWords, h] using this

theorem ofWords_wf (ws : List Word) (h : ws.length ≤ 4294967295) : (PlatterArray.ofWords ws).wf := by
  refine ⟨cellsFrom_sorted _ _, fun e he => ?_⟩
  have := cellsFrom_mem _ _ e he
  have := ofWords_len ws h
  exact ⟨by omega, by tauto⟩

/-- The heap of one array, array 0. -/
theorem onlyArray0_arrayAt (p : PlatterArray) (id : Word) :
    Memory.arrayAt { arrays := [(0, p)] } id = if id = 0 then some p else none := by
  simp only [Memory.arrayAt, assocFind]
  by_cases h : id = 0
  · subst h; rfl
  · have : ¬ (0 = id.toNat) := fun e => h (BitVec.eq_of_toNat_eq (by simpa using e.symm))
    rw [if_neg this, if_neg h]

theorem onlyArray0_wf (p : PlatterArray) (h : p.wf) : Memory.wf { arrays := [(0, p)] } :=
  ⟨by simp, fun e he => by rw [List.mem_singleton.1 he]; exact ⟨Nat.zero_le _, h⟩⟩

/-- What program load leaves, when the length is one of a PROGRAM. -/
theorem load_eq_some (program : List Word) (input : InputSource) (outAnswers : List OutputAnswer)
    (params : Params) (s : State) :
    State.load program input outAnswers params = some s ↔
      program.length ≤ 4294967295 ∧
      s = { State.reset with
              mem := { arrays := [(0, PlatterArray.ofWords program)] },
              input := input, outAnswers := outAnswers, params := params } := by
  unfold State.load
  by_cases h : program.length ≤ 4294967295
  · have : programLengthOk program.length = true := decide_eq_true h
    rw [if_pos this]
    exact ⟨fun e => ⟨h, (Option.some.inj e).symm⟩, fun e => by rw [e.2]⟩
  · have : programLengthOk program.length = false := decide_eq_false h
    rw [this]
    exact ⟨fun e => by simp at e, fun e => absurd e.1 h⟩

end Sys2Proof.Machine
end

