-- ==== Sys2Proof/Laws/State.lean ====
section
/-! SUPPORT. What each update of the state leaves in each field, and in each register. -/

namespace Sys2Proof.Machine

open Sys2Proof

@[simp] theorem advance_regs (s : State) : (s.advance).regs = s.regs := rfl
@[simp] theorem advance_pc (s : State) : (s.advance).pc = s.pc + 1 := rfl
@[simp] theorem advance_status (s : State) : (s.advance).status = s.status := rfl
@[simp] theorem advance_diag (s : State) : (s.advance).diag = s.diag := rfl
@[simp] theorem advance_mem (s : State) : (s.advance).mem = s.mem := rfl
@[simp] theorem advance_trace (s : State) : (s.advance).trace = s.trace := rfl
@[simp] theorem advance_input (s : State) : (s.advance).input = s.input := rfl
@[simp] theorem advance_outAnswers (s : State) : (s.advance).outAnswers = s.outAnswers := rfl
@[simp] theorem advance_params (s : State) : (s.advance).params = s.params := rfl
@[simp] theorem advance_openCount (s : State) : (s.advance).openCount = s.openCount := rfl
@[simp] theorem advance_reg (s : State) (q : RegIdx) : (s.advance).reg q = s.reg q := rfl

@[simp] theorem setReg_pc (s : State) (r : RegIdx) (v : Word) : (s.setReg r v).pc = s.pc := rfl
@[simp] theorem setReg_status (s : State) (r : RegIdx) (v : Word) : (s.setReg r v).status = s.status := rfl
@[simp] theorem setReg_diag (s : State) (r : RegIdx) (v : Word) : (s.setReg r v).diag = s.diag := rfl
@[simp] theorem setReg_mem (s : State) (r : RegIdx) (v : Word) : (s.setReg r v).mem = s.mem := rfl
@[simp] theorem setReg_trace (s : State) (r : RegIdx) (v : Word) : (s.setReg r v).trace = s.trace := rfl
@[simp] theorem setReg_input (s : State) (r : RegIdx) (v : Word) : (s.setReg r v).input = s.input := rfl
@[simp] theorem setReg_outAnswers (s : State) (r : RegIdx) (v : Word) : (s.setReg r v).outAnswers = s.outAnswers := rfl
@[simp] theorem setReg_params (s : State) (r : RegIdx) (v : Word) : (s.setReg r v).params = s.params := rfl
@[simp] theorem setReg_openCount (s : State) (r : RegIdx) (v : Word) : (s.setReg r v).openCount = s.openCount := rfl

@[simp] theorem setPc_regs (s : State) (v : Word) : (s.setPc v).regs = s.regs := rfl
@[simp] theorem setPc_pc (s : State) (v : Word) : (s.setPc v).pc = v := rfl
@[simp] theorem setPc_status (s : State) (v : Word) : (s.setPc v).status = s.status := rfl
@[simp] theorem setPc_diag (s : State) (v : Word) : (s.setPc v).diag = s.diag := rfl
@[simp] theorem setPc_mem (s : State) (v : Word) : (s.setPc v).mem = s.mem := rfl
@[simp] theorem setPc_trace (s : State) (v : Word) : (s.setPc v).trace = s.trace := rfl
@[simp] theorem setPc_input (s : State) (v : Word) : (s.setPc v).input = s.input := rfl
@[simp] theorem setPc_outAnswers (s : State) (v : Word) : (s.setPc v).outAnswers = s.outAnswers := rfl
@[simp] theorem setPc_params (s : State) (v : Word) : (s.setPc v).params = s.params := rfl
@[simp] theorem setPc_openCount (s : State) (v : Word) : (s.setPc v).openCount = s.openCount := rfl
@[simp] theorem setPc_reg (s : State) (v : Word) (q : RegIdx) : (s.setPc v).reg q = s.reg q := rfl

@[simp] theorem setMem_regs (s : State) (m : Memory) : (s.setMem m).regs = s.regs := rfl
@[simp] theorem setMem_pc (s : State) (m : Memory) : (s.setMem m).pc = s.pc := rfl
@[simp] theorem setMem_status (s : State) (m : Memory) : (s.setMem m).status = s.status := rfl
@[simp] theorem setMem_diag (s : State) (m : Memory) : (s.setMem m).diag = s.diag := rfl
@[simp] theorem setMem_mem (s : State) (m : Memory) : (s.setMem m).mem = m := rfl
@[simp] theorem setMem_trace (s : State) (m : Memory) : (s.setMem m).trace = s.trace := rfl
@[simp] theorem setMem_input (s : State) (m : Memory) : (s.setMem m).input = s.input := rfl
@[simp] theorem setMem_outAnswers (s : State) (m : Memory) : (s.setMem m).outAnswers = s.outAnswers := rfl
@[simp] theorem setMem_params (s : State) (m : Memory) : (s.setMem m).params = s.params := rfl
@[simp] theorem setMem_openCount (s : State) (m : Memory) : (s.setMem m).openCount = s.openCount := rfl
@[simp] theorem setMem_reg (s : State) (m : Memory) (q : RegIdx) : (s.setMem m).reg q = s.reg q := rfl

@[simp] theorem setStatus_regs (s : State) (st : Status) : (s.setStatus st).regs = s.regs := rfl
@[simp] theorem setStatus_pc (s : State) (st : Status) : (s.setStatus st).pc = s.pc := rfl
@[simp] theorem setStatus_status (s : State) (st : Status) : (s.setStatus st).status = st := rfl
@[simp] theorem setStatus_diag (s : State) (st : Status) : (s.setStatus st).diag = s.diag := rfl
@[simp] theorem setStatus_mem (s : State) (st : Status) : (s.setStatus st).mem = s.mem := rfl
@[simp] theorem setStatus_trace (s : State) (st : Status) : (s.setStatus st).trace = s.trace := rfl
@[simp] theorem setStatus_input (s : State) (st : Status) : (s.setStatus st).input = s.input := rfl
@[simp] theorem setStatus_outAnswers (s : State) (st : Status) : (s.setStatus st).outAnswers = s.outAnswers := rfl
@[simp] theorem setStatus_params (s : State) (st : Status) : (s.setStatus st).params = s.params := rfl
@[simp] theorem setStatus_openCount (s : State) (st : Status) : (s.setStatus st).openCount = s.openCount := rfl
@[simp] theorem setStatus_reg (s : State) (st : Status) (q : RegIdx) : (s.setStatus st).reg q = s.reg q := rfl

@[simp] theorem setInput_regs (s : State) (src : InputSource) : (s.setInput src).regs = s.regs := rfl
@[simp] theorem setInput_pc (s : State) (src : InputSource) : (s.setInput src).pc = s.pc := rfl
@[simp] theorem setInput_status (s : State) (src : InputSource) : (s.setInput src).status = s.status := rfl
@[simp] theorem setInput_diag (s : State) (src : InputSource) : (s.setInput src).diag = s.diag := rfl
@[simp] theorem setInput_mem (s : State) (src : InputSource) : (s.setInput src).mem = s.mem := rfl
@[simp] theorem setInput_trace (s : State) (src : InputSource) : (s.setInput src).trace = s.trace := rfl
@[simp] theorem setInput_input (s : State) (src : InputSource) : (s.setInput src).input = src := rfl
@[simp] theorem setInput_outAnswers (s : State) (src : InputSource) : (s.setInput src).outAnswers = s.outAnswers := rfl
@[simp] theorem setInput_params (s : State) (src : InputSource) : (s.setInput src).params = s.params := rfl
@[simp] theorem setInput_openCount (s : State) (src : InputSource) : (s.setInput src).openCount = s.openCount := rfl
@[simp] theorem setInput_reg (s : State) (src : InputSource) (q : RegIdx) : (s.setInput src).reg q = s.reg q := rfl

@[simp] theorem setReg_reg_self (s : State) (r : RegIdx) (v : Word) : (s.setReg r v).reg r = v := by
  simp [State.setReg, State.reg, regRead]

theorem setReg_reg_other (s : State) (r q : RegIdx) (v : Word) (h : q ≠ r) :
    (s.setReg r v).reg q = s.reg q := by
  have h' : r.toNat ≠ q.toNat := fun e => h (BitVec.eq_of_toNat_eq e.symm)
  simp [State.setReg, State.reg, regRead, h']

/-- Two states with the same registers, read one by one, have the same register file. -/
theorem regs_ext (s t : State) (h : ∀ r, t.reg r = s.reg r) : t.regs = s.regs := by
  apply Vector.ext
  intro i hi
  have := h (BitVec.ofNat 3 i)
  simpa [State.reg, regRead, Nat.mod_eq_of_lt hi] using this

end Sys2Proof.Machine
end

