-- ==== Sys2Proof/Laws/Ops.lean ====
section
/-! SUPPORT. What fault entry and the two I/O transactions can do, said once. -/

namespace Sys2Proof.Machine

open Sys2Proof

/-! Fault entry (`60_exceptions.md` R207). -/

section
variable (s : State) (kind : FaultKind) (at0 : Word)

@[simp] theorem takeFault_status : (s.takeFault kind at0).status = .faulted := by
  unfold State.takeFault; split <;> rfl

@[simp] theorem takeFault_pc : (s.takeFault kind at0).pc = at0 := by
  unfold State.takeFault; split <;> rfl

@[simp] theorem takeFault_kind : (s.takeFault kind at0).diag.kind = kind := by
  unfold State.takeFault; split <;> rfl

@[simp] theorem takeFault_diagPc : (s.takeFault kind at0).diag.pc = at0 := by
  unfold State.takeFault; split <;> rfl

@[simp] theorem takeFault_hasInsn : (s.takeFault kind at0).diag.hasInsn = s.fetch.isSome := by
  unfold State.takeFault; split <;> simp_all

@[simp] theorem takeFault_regs : (s.takeFault kind at0).regs = s.regs := by
  unfold State.takeFault; split <;> rfl

@[simp] theorem takeFault_reg (r : RegIdx) : (s.takeFault kind at0).reg r = s.reg r := by
  simp [State.reg]

@[simp] theorem takeFault_mem : (s.takeFault kind at0).mem = s.mem := by
  unfold State.takeFault; split <;> rfl

@[simp] theorem takeFault_trace : (s.takeFault kind at0).trace = s.trace := by
  unfold State.takeFault; split <;> rfl

@[simp] theorem takeFault_input : (s.takeFault kind at0).input = s.input := by
  unfold State.takeFault; split <;> rfl

@[simp] theorem takeFault_outAnswers : (s.takeFault kind at0).outAnswers = s.outAnswers := by
  unfold State.takeFault; split <;> rfl

@[simp] theorem takeFault_params : (s.takeFault kind at0).params = s.params := by
  unfold State.takeFault; split <;> rfl

/-- The instruction part of the diagnostic when a platter was fetched. -/
theorem takeFault_insn (w : Word) (h : s.fetch = some w) :
    (s.takeFault kind at0).diag.insn = insnRecordOf w s.regs := by
  unfold State.takeFault
  simp [h]

end

/-- Fault entry does not look at the input source. -/
theorem takeFault_setInput (s : State) (src : InputSource) (k : FaultKind) (p : Word) :
    (s.setInput src).takeFault k p = (s.takeFault k p).setInput src := by
  unfold State.takeFault
  have hf : (s.setInput src).fetch = s.fetch := rfl
  rw [hf]
  cases s.fetch <;> rfl

/-! Output (`45_io.md` R182). -/

/-- What `IoWrite` can answer. -/
theorem ioWrite_cases (s : State) (b : Byte) :
    (s.outAnswers.head? = some .failed ∧ s.ioWrite b = none) ∨
    (s.outAnswers.head? ≠ some .failed ∧
      s.ioWrite b = some { s with trace := s.trace ++ [b], outAnswers := s.outAnswers.tail }) := by
  unfold State.ioWrite
  cases h : s.outAnswers with
  | nil => exact .inr (by simp)
  | cons a rest => cases a <;> simp

/-- `IoWrite` does not look at the input source. -/
theorem ioWrite_setInput (s : State) (src : InputSource) (b : Byte) :
    (s.setInput src).ioWrite b = (s.ioWrite b).map (·.setInput src) := by
  unfold State.ioWrite
  simp only [setInput_outAnswers]
  split <;> rfl

/-! Input (`45_io.md` R183). -/

/-- What `IoRead` can answer. -/
theorem take_cases (src : InputSource) :
    (∃ b rest, src.answers = .byte b :: rest ∧ src.take = .byte b { src with answers := rest }) ∨
    (∃ rest, src.answers = .endOfInput :: rest ∧ src.take = .endOfInput { src with answers := rest }) ∨
    (∃ rest, src.answers = .failed :: rest ∧ src.take = .failed) ∨
    (src.answers = [] ∧ src.tail = .exhausted ∧ src.take = .endOfInput src) ∨
    (src.answers = [] ∧ src.tail = .silent ∧ src.take = .waiting) ∨
    (∃ i k, src.answers = [] ∧ src.tail = .endless i k ∧
      src.take = .byte (Config.endlessInput i k) { src with tail := .endless i (k + 1) }) := by
  unfold InputSource.take
  cases h : src.answers with
  | nil => cases h2 : src.tail <;> simp
  | cons a rest => cases a <;> simp

theorem answersOk_of_noByte (l : List InputAnswer) (h : l.all (fun a => !a.isByte) = true) :
    answersOk l = true := by
  induction l with
  | nil => rfl
  | cons a l ih =>
    have hl : l.all (fun a => !a.isByte) = true := by
      simp only [List.all_cons, Bool.and_eq_true] at h
      exact h.2
    cases a with
    | byte b => exact ih hl
    | endOfInput => exact hl
    | failed => exact ih hl

/-- A request leaves a source that R187 allows. -/
theorem take_keeps_wf {src rest : InputSource} (h : src.wf = true)
    (ht : (∃ e, src.take = .byte e rest) ∨ src.take = .endOfInput rest) : rest.wf = true := by
  obtain ⟨ans, tl⟩ := src
  simp only [InputSource.wf, Bool.and_eq_true] at h
  obtain ⟨h1, h2⟩ := h
  cases ans with
  | nil =>
    cases tl <;> simp [InputSource.take] at ht <;> (subst ht; rfl)
  | cons a l =>
    cases a with
    | byte b =>
      simp [InputSource.take] at ht
      subst ht
      simp only [InputSource.wf, Bool.and_eq_true]
      exact ⟨h1, by simpa using h2⟩
    | endOfInput =>
      simp [InputSource.take] at ht
      subst ht
      simp only [InputSource.wf, Bool.and_eq_true]
      refine ⟨answersOk_of_noByte l h1, ?_⟩
      have h2 : tl = .exhausted := by simpa using h2
      simp [h2]
    | failed => simp [InputSource.take] at ht

end Sys2Proof.Machine
end

