-- ==== Sys2Proof/Laws/PerInstr.lean ====
section
/-! SUPPORT. Statements made for every instruction, one lemma per constructor. -/

namespace Sys2Proof.Laws

open Sys2Proof

/-- The opcode field of an instruction's word is the instruction's opcode (`30_encoding.md` R91, R96). -/
def OpcodeField.Statement (i : Instr) : Prop := opField (encode i) = i.opcode

theorem OpcodeField.cmov (a b c : RegIdx) : OpcodeField.Statement (.cmov a b c) := opField_encRegular _ a b c
theorem OpcodeField.aidx (a b c : RegIdx) : OpcodeField.Statement (.aidx a b c) := opField_encRegular _ a b c
theorem OpcodeField.amend (a b c : RegIdx) : OpcodeField.Statement (.amend a b c) := opField_encRegular _ a b c
theorem OpcodeField.add (a b c : RegIdx) : OpcodeField.Statement (.add a b c) := opField_encRegular _ a b c
theorem OpcodeField.mul (a b c : RegIdx) : OpcodeField.Statement (.mul a b c) := opField_encRegular _ a b c
theorem OpcodeField.div (a b c : RegIdx) : OpcodeField.Statement (.div a b c) := opField_encRegular _ a b c
theorem OpcodeField.nand (a b c : RegIdx) : OpcodeField.Statement (.nand a b c) := opField_encRegular _ a b c
theorem OpcodeField.halt (a b c : RegIdx) : OpcodeField.Statement (.halt a b c) := opField_encRegular _ a b c
theorem OpcodeField.alloc (a b c : RegIdx) : OpcodeField.Statement (.alloc a b c) := opField_encRegular _ a b c
theorem OpcodeField.abandon (a b c : RegIdx) : OpcodeField.Statement (.abandon a b c) := opField_encRegular _ a b c
theorem OpcodeField.out (a b c : RegIdx) : OpcodeField.Statement (.out a b c) := opField_encRegular _ a b c
theorem OpcodeField.inp (a b c : RegIdx) : OpcodeField.Statement (.inp a b c) := opField_encRegular _ a b c
theorem OpcodeField.loadprog (a b c : RegIdx) : OpcodeField.Statement (.loadprog a b c) := opField_encRegular _ a b c
theorem OpcodeField.orth (a : RegIdx) (value : Imm) : OpcodeField.Statement (.orth a value) := opField_encOrth a value
theorem OpcodeField.illegal14 : OpcodeField.Statement .illegal14 := by
  unfold OpcodeField.Statement; decide
theorem OpcodeField.illegal15 : OpcodeField.Statement .illegal15 := by
  unfold OpcodeField.Statement; decide

end Sys2Proof.Laws
end

