-- ==== Sys2Proof/Laws/Step.lean ====
section
/-! SUPPORT. What an instruction and a step can do, said once; later proofs take these cases instead of unfolding the
meanings. -/

namespace Sys2Proof.Machine

open Sys2Proof

/-- Every next state of an instruction, by what happened. -/
theorem exec_cases {i : Instr} {s t : State} (h : exec i s = .next t) :
    (∃ k, k ≠ .decodeError ∧ t = s.dispatchFault k) ∨
    ((i = .illegal14 ∨ i = .illegal15) ∧ t = s.earlyFault .decodeError) ∨
    (∃ a b c, i = .inp a b c ∧ s.input.take = .waiting ∧ t = s) ∨
    (∃ a b c, i = .cmov a b c ∧ s.reg c = 0 ∧ t = s.advance) ∨
    (∃ r v, instrWrittenReg i = some r ∧ i.opcode.toNat ∉ [8, 11] ∧ t = s.advance.setReg r v) ∨
    (∃ a b c m, i = .amend a b c ∧ s.mem.write (s.reg a) (s.reg b) (s.reg c) = some m ∧
      t = s.advance.setMem m) ∨
    (∃ a b c, i = .halt a b c ∧ t = s.advance.setStatus .halted) ∨
    (∃ a b c id, i = .alloc a b c ∧ s.mem.lowestFreeId = some id ∧
      storageFits s.params (s.mem.alloc id (s.reg c)) = true ∧
      t = (s.advance.setMem (s.mem.alloc id (s.reg c))).setReg b id) ∨
    (∃ a b c, i = .abandon a b c ∧ s.reg c ≠ 0 ∧ s.mem.allocated (s.reg c) = true ∧
      t = s.advance.setMem (s.mem.free (s.reg c))) ∨
    (∃ a b c, i = .out a b c ∧ (s.reg c).toNat ≤ 255 ∧ s.outAnswers.head? ≠ some .failed ∧
      t = { s.advance with trace := s.trace ++ [(s.reg c).extractLsb' 0 8],
                           outAnswers := s.outAnswers.tail }) ∨
    (∃ a b c rest v, i = .inp a b c ∧
      ((∃ e, s.input.take = .byte e rest ∧ v = byteOperand e) ∨
        (s.input.take = .endOfInput rest ∧ v = endOfInputValue)) ∧
      t = (s.advance.setInput rest).setReg c v) ∨
    (∃ a b c, i = .loadprog a b c ∧ s.reg b = 0 ∧ t = s.advance.setPc (s.reg c)) ∨
    (∃ a b c m, i = .loadprog a b c ∧ s.reg b ≠ 0 ∧ s.mem.copyTo0 (s.reg b) = some m ∧
      storageFits s.params m = true ∧ t = (s.advance.setMem m).setPc (s.reg c)) := by
  cases i with
  | cmov a b c =>
    simp only [exec, execCmov, condHolds, Host.Outcome.next.injEq] at h
    subst h
    by_cases hc : s.reg c = 0
    · simp [hc]
    · simp only [hc, ne_eq, not_false_eq_true, decide_true, if_true]
      exact .inr (.inr (.inr (.inr (.inl ⟨a, _, rfl, by simp [Instr.opcode], rfl⟩))))
  | aidx a b c =>
    simp only [exec, execAidx] at h
    split at h <;> cases h
    · exact .inr (.inr (.inr (.inr (.inl ⟨a, _, rfl, by simp [Instr.opcode], rfl⟩))))
    · exact .inl ⟨_, by decide, rfl⟩
  | amend a b c =>
    simp only [exec, execAmend] at h
    split at h <;> cases h
    · rename_i m hm
      exact .inr (.inr (.inr (.inr (.inr (.inl ⟨a, b, c, m, rfl, hm, rfl⟩)))))
    · exact .inl ⟨_, by decide, rfl⟩
  | add a b c => cases h; exact .inr (.inr (.inr (.inr (.inl ⟨a, _, rfl, by simp [Instr.opcode], rfl⟩))))
  | mul a b c => cases h; exact .inr (.inr (.inr (.inr (.inl ⟨a, _, rfl, by simp [Instr.opcode], rfl⟩))))
  | div a b c =>
    simp only [exec, execDiv] at h
    split at h <;> cases h
    · exact .inl ⟨_, by decide, rfl⟩
    · exact .inr (.inr (.inr (.inr (.inl ⟨a, _, rfl, by simp [Instr.opcode], rfl⟩))))
  | nand a b c => cases h; exact .inr (.inr (.inr (.inr (.inl ⟨a, _, rfl, by simp [Instr.opcode], rfl⟩))))
  | halt a b c =>
    cases h
    exact .inr (.inr (.inr (.inr (.inr (.inr (.inl ⟨a, b, c, rfl, rfl⟩))))))
  | alloc a b c =>
    simp only [exec, execAlloc] at h
    split at h
    · cases h; exact .inl ⟨_, by decide, rfl⟩
    · rename_i id hid
      split at h <;> cases h
      · rename_i hf
        exact .inr (.inr (.inr (.inr (.inr (.inr (.inr (.inl ⟨a, b, c, id, rfl, hid, hf, rfl⟩)))))))
      · exact .inl ⟨_, by decide, rfl⟩
  | abandon a b c =>
    simp only [exec, execAbandon] at h
    split at h
    · cases h; exact .inl ⟨_, by decide, rfl⟩
    · rename_i hc
      split at h <;> cases h
      · rename_i ha
        exact .inr (.inr (.inr (.inr (.inr (.inr (.inr (.inr (.inl ⟨a, b, c, rfl, hc, ha, rfl⟩))))))))
      · exact .inl ⟨_, by decide, rfl⟩
  | out a b c =>
    simp only [exec, execOut] at h
    split at h
    · rename_i hr
      have hr : (s.reg c).toNat ≤ 255 := by simpa [outputInRange] using hr
      rcases ioWrite_cases s.advance ((s.reg c).extractLsb' 0 8) with ⟨hh, hw⟩ | ⟨hh, hw⟩ <;>
        rw [hw] at h <;> cases h
      · exact .inl ⟨_, by decide, rfl⟩
      · exact .inr (.inr (.inr (.inr (.inr (.inr (.inr (.inr (.inr (.inl
          ⟨a, b, c, rfl, hr, hh, rfl⟩)))))))))
    · cases h; exact .inl ⟨_, by decide, rfl⟩
  | inp a b c =>
    simp only [exec, execInp] at h
    split at h <;> rename_i ht <;> cases h
    · exact .inr (.inr (.inr (.inr (.inr (.inr (.inr (.inr (.inr (.inr (.inl
        ⟨a, b, c, _, _, rfl, .inl ⟨_, ht, rfl⟩, rfl⟩))))))))))
    · exact .inr (.inr (.inr (.inr (.inr (.inr (.inr (.inr (.inr (.inr (.inl
        ⟨a, b, c, _, _, rfl, .inr ⟨ht, rfl⟩, rfl⟩))))))))))
    · exact .inl ⟨_, by decide, rfl⟩
    · exact .inr (.inr (.inl ⟨a, b, c, rfl, ht, rfl⟩))
  | loadprog a b c =>
    simp only [exec, execLoadprog] at h
    split at h
    · rename_i hb
      cases h
      exact .inr (.inr (.inr (.inr (.inr (.inr (.inr (.inr (.inr (.inr (.inr (.inl
        ⟨a, b, c, rfl, hb, rfl⟩)))))))))))
    · rename_i hb
      split at h
      · cases h; exact .inl ⟨_, by decide, rfl⟩
      · rename_i m hm
        split at h <;> cases h
        · rename_i hf
          exact .inr (.inr (.inr (.inr (.inr (.inr (.inr (.inr (.inr (.inr (.inr (.inr
            ⟨a, b, c, m, rfl, hb, hm, hf, rfl⟩)))))))))))
        · exact .inl ⟨_, by decide, rfl⟩
  | orth a v => cases h; exact .inr (.inr (.inr (.inr (.inl ⟨a, _, rfl, by simp [Instr.opcode], rfl⟩))))
  | illegal14 => cases h; exact .inr (.inl ⟨.inl rfl, rfl⟩)
  | illegal15 => cases h; exact .inr (.inl ⟨.inr rfl, rfl⟩)

/-- An instruction other than IN does the same with any other input source, and hands that source on. -/
theorem exec_setInput {i : Instr} {s t : State} (src : InputSource) (hi : i.opcode.toNat ≠ 11)
    (h : exec i s = .next t) : exec i (s.setInput src) = .next (t.setInput src) := by
  have hd : ∀ k, (s.setInput src).dispatchFault k = (s.dispatchFault k).setInput src :=
    fun k => takeFault_setInput _ _ _ _
  have he : ∀ k, (s.setInput src).earlyFault k = (s.earlyFault k).setInput src :=
    fun k => takeFault_setInput _ _ _ _
  have hw : ∀ b, (s.setInput src).advance.ioWrite b = (s.advance.ioWrite b).map (·.setInput src) :=
    fun b => ioWrite_setInput s.advance src b
  cases i with
  | inp a b c => exact absurd rfl hi
  | cmov a b c =>
    simp only [exec, execCmov, setInput_reg] at h ⊢
    split at h <;> cases h <;> rename_i hc <;> simp only [hc] <;> rfl
  | aidx a b c =>
    simp only [exec, execAidx, setInput_reg, setInput_mem, hd] at h ⊢
    split at h <;> cases h <;> rfl
  | amend a b c =>
    simp only [exec, execAmend, setInput_reg, setInput_mem, hd] at h ⊢
    split at h <;> cases h <;> rfl
  | add a b c => cases h; rfl
  | mul a b c => cases h; rfl
  | nand a b c => cases h; rfl
  | orth a b => cases h; rfl
  | halt a b c => cases h; rfl
  | div a b c =>
    simp only [exec, execDiv, setInput_reg, hd] at h ⊢
    split at h <;> cases h <;> rename_i hc <;> simp only [hc] <;> rfl
  | alloc a b c =>
    simp only [exec, execAlloc, setInput_reg, setInput_mem, setInput_params, hd] at h ⊢
    split at h
    · cases h; rfl
    · split at h <;> cases h <;> rename_i hf <;> simp only [hf] <;> rfl
  | abandon a b c =>
    simp only [exec, execAbandon, setInput_reg, setInput_mem, hd] at h ⊢
    split at h
    · cases h; rename_i hc; simp only [hc]; rfl
    · rename_i hc; split at h <;> cases h <;> rename_i hf <;> simp only [hc, hf] <;> rfl
  | out a b c =>
    simp only [exec, execOut, setInput_reg, hw, hd] at h ⊢
    split at h
    · rename_i hc
      split at h <;> cases h <;> rename_i hf <;> simp [hc, hf]
    · cases h; rename_i hc; simp only [hc]; rfl
  | loadprog a b c =>
    simp only [exec, execLoadprog, setInput_reg, setInput_mem, setInput_params, hd] at h ⊢
    split at h
    · cases h; rename_i hc; rw [if_pos hc]; rfl
    · rename_i hc; rw [if_neg hc]
      split at h
      · cases h; rfl
      · split at h <;> cases h <;> rename_i hf <;> simp only [hf] <;> rfl
  | illegal14 => simp only [exec, execIllegal14, he] at h ⊢; cases h; rfl
  | illegal15 => simp only [exec, execIllegal15, he] at h ⊢; cases h; rfl

/-- Every next state of a step: the machine was Running, and either the fetch faulted or the fetched platter's instruction
ran. -/
theorem step_cases {s t : State} (h : step s = .next t) :
    s.status = .running ∧
    ((s.fetch = none ∧ t = s.earlyFault .outOfBoundsAccess) ∨
     (∃ w, s.fetch = some w ∧ exec (decode w) s = .next t)) := by
  unfold step at h
  split at h
  · cases h
  · cases h
  · rename_i hs
    refine ⟨hs, ?_⟩
    split at h
    · cases h; exact .inl ⟨‹_›, rfl⟩
    · exact .inr ⟨_, ‹_›, h⟩

end Sys2Proof.Machine
end

