-- ==== Sys2Proof/Tests/Slice0.lean ====
section
/-! SUPPORT. Tests. Words and expected values are those of `95_test_vectors.md` (the vector's name stands beside each) or of the
rule named; then a witness for the hypotheses of each statement that has some. -/

namespace Sys2Proof.Machine.Tests

open Sys2Proof Sys2Proof.Machine

/-- Reset with a program, no input, a boundary that accepts. -/
def prog (ws : List Word) : State :=
  { State.reset with mem := { arrays := [(0, PlatterArray.ofWords ws)] } }

/-- The state with one more array, for test states. -/
def withArray (s : State) (id : Word) (ws : List Word) : State :=
  s.setMem { arrays := assocPut id.toNat (PlatterArray.ofWords ws) s.mem.arrays }

/-- The next state, if there is one. -/
def nextOf : Result → Option State
  | .next t => some t
  | .fault _ => none
  | .refused _ => none

/-- One step, then a look at the next state. -/
def after {α : Type} (s : State) (f : State → α) : Option α := (nextOf (step s)).map f

/-- The next state of `s`; `s` itself if there is none. -/
def next (s : State) : State := (nextOf (step s)).getD s

/-- A fault as the host sees it: status, kind, `diag.pc`, `pc`. -/
def faultView (s : State) : Status × FaultKind × Word × Word := (s.status, s.diag.kind, s.diag.pc, s.pc)

/-! ## Well-formedness: each check refuses an ill-formed term -/

theorem test_illegal14_refused : Instr.wellFormed .illegal14 = false := by decide
theorem test_illegal15_refused : Instr.wellFormed .illegal15 = false := by decide
theorem test_program_too_long_refused : programLengthOk 4294967296 = false := by decide
theorem test_longest_program_allowed : programLengthOk 4294967295 = true := by decide
theorem test_ragged_binary_scroll_refused :
    binaryScrollOk [0xD0, 0, 0, 0x48, 0xD2] = false ∧ binaryScroll [0xD0, 0, 0, 0x48, 0xD2] = none := by
  decide
theorem test_short_text_line_refused :
    textLineOk ['0', '1'] = false ∧ textScroll [['0', '1']] = none := by decide
theorem test_bad_text_character_refused : textLineOk (List.replicate 32 '2') = false := by decide
theorem test_truncated_bytes_refused : (decodeBytes [0xD0, 0, 0]).toOption = none := by decide

/-! ## Decoding: words written out field by field (op, 19 ignored bits, A, B, C), or from Part 2 -/

theorem test_decode_cmov : decode 0b00000000000000000000000001010011 = .cmov 1 2 3 := by decide
theorem test_decode_aidx : decode 0b00010000000000000000000101001011 = .aidx 5 1 3 := by decide
theorem test_decode_amend : decode 0b00100000000000000000000001011100 = .amend 1 3 4 := by decide
theorem test_decode_add : decode 0b00110000000000000000000111110000 = .add 7 6 0 := by decide
theorem test_decode_mul : decode 0b01000000000000000000000101101101 = .mul 5 5 5 := by decide
theorem test_decode_div : decode 0b01010000000000000000000010001000 = .div 2 1 0 := by decide
theorem test_decode_nand : decode 0b01100000000000000000000011010001 = .nand 3 2 1 := by decide
theorem test_decode_halt : decode 0b01110000000000000000000000000000 = .halt 0 0 0 := by decide
theorem test_decode_alloc : decode 0b10000000000000000000000000001010 = .alloc 0 1 2 := by decide
theorem test_decode_abandon : decode 0b10010000000000000000000000000100 = .abandon 0 0 4 := by decide
theorem test_decode_out : decode 0b10100000000000000000000000000001 = .out 0 0 1 := by decide
theorem test_decode_inp : decode 0b10110000000000000000000000000010 = .inp 0 0 2 := by decide
theorem test_decode_loadprog : decode 0b11000000000000000000000000010011 = .loadprog 0 2 3 := by decide
theorem test_decode_orth : decode 0b11011110000000000000000000001010 = .orth 7 10 := by decide
theorem test_decode_illegal14 : decode 0b11100000000000000000000000000001 = .illegal14 := by decide
theorem test_decode_illegal15 : decode 0b11111111111111111111111111111111 = .illegal15 := by decide
/-- vM5: bits 27:9 are ignored. vX5: bits 8:0 of an Orthography word are part of the value. -/
theorem test_decode_ignored_bits :
    decode 0x0FFFFE53 = .cmov 1 2 3 ∧ decode 0xD00001FF = .orth 0 511 := by decide
theorem test_encode_canonical :
    encode (.loadprog 0 2 3) = 0xC0000013 ∧ encode (.orth 7 0x1FFFFFF) = 0xDFFFFFFF := by decide
theorem test_decodeTableWord :
    decodeTableWord 32 0xC0000013 = some (.loadprog 0 2 3) ∧
    decodeTableWord 32 0xE0000000 = some .illegal14 := by decide
theorem test_withFetchWord_runs_first :
    after (State.reset.withFetchWord 32 0x70000000) (fun t => (t.status, t.pc)) = some (.halted, 1) ∧
    after (State.reset.withFetchWord 32 0x80000000) (fun t => (t.status, t.reg 0)) = some (.running, 1) := by
  decide

/-! ## Instructions -/

/-- vM1, vM2. -/
theorem test_cmov_moves_only_if_nonzero :
    after ((((prog [0x53]).setReg 1 0x11).setReg 2 0x22).setReg 3 1) (fun t => (t.reg 1, t.pc)) = some (0x22, 1) ∧
    after (((prog [0x53]).setReg 1 0x11).setReg 2 0x22) (fun t => (t.reg 1, t.pc)) = some (0x11, 1) := by
  decide
/-- vM7. -/
theorem test_orth_zero_extends :
    after ((prog [0xDFFFFFFF]).setReg 7 0xFFFFFFFF) (fun t => t.reg 7) = some 0x01FFFFFF := by decide
/-- vL1. -/
theorem test_aidx_loads :
    after (withArray (((prog [0x1000014B]).setReg 1 1).setReg 3 2) 1 [0, 0, 0x2A, 0, 0]) (fun t => t.reg 5)
      = some 0x2A := by decide
/-- vL2: offset = length. -/
theorem test_aidx_at_length_faults :
    after (withArray ((((prog [0x1000014B]).setReg 1 1).setReg 3 5).setReg 5 9) 1 [0, 0, 0x2A, 0, 0])
      (fun t => (faultView t, t.reg 5)) = some ((.faulted, .outOfBoundsAccess, 1, 1), 9) := by decide
/-- vL7. -/
theorem test_amend_stores :
    after (withArray ((((prog [0x2000005C]).setReg 1 1).setReg 3 2).setReg 4 0x2A) 1 [0, 0, 0, 0, 0])
      (fun t => [t.mem.read 1 1, t.mem.read 1 2, t.mem.read 1 3, t.mem.lenOf 1])
      = some [some 0, some 0x2A, some 0, some 5] := by decide
/-- vL10: a store into the program is fetched by the next step. -/
theorem test_amend_into_program :
    after (next (((prog [0x2000000A, 0xF0000000]).setReg 1 1).setReg 2 0x70000000)) (fun t => (t.status, t.pc))
      = some (.halted, 2) := by decide
/-- vA2, vA6. -/
theorem test_add_wraps :
    after (((prog [0x30000053]).setReg 2 0xFFFFFFFF).setReg 3 1) (fun t => t.reg 1) = some 0 ∧
    after ((prog [0x30000049]).setReg 1 0x80000001) (fun t => t.reg 1) = some 2 := by decide
/-- vT7. -/
theorem test_mul_keeps_low_half :
    after (((prog [0x40000053]).setReg 2 0xDEADBEEF).setReg 3 0x1000) (fun t => t.reg 1) = some 0xDBEEF000 := by
  decide
/-- vQ6. -/
theorem test_div_is_unsigned :
    after ((((prog [0x50000053]).setReg 1 5).setReg 2 0x80000000).setReg 3 0xFFFFFFFF) (fun t => t.reg 1) = some 0 := by
  decide
/-- vQ9. -/
theorem test_div_by_zero_faults :
    after ((prog [0x50000053]).setReg 1 5) (fun t => (faultView t, t.reg 1))
      = some ((.faulted, .divisionByZero, 1, 1), 5) := by decide
/-- vN3. -/
theorem test_nand :
    after (((prog [0x60000053]).setReg 2 0xF0F0F0F0).setReg 3 0xFF00FF00) (fun t => t.reg 1) = some 0x0FFF0FFF := by
  decide
/-- vK2. -/
theorem test_halt_ignores_fields :
    after ((prog [0x7FFFFFFF]).setReg 7 5) (fun t => (t.status, t.pc, t.reg 7)) = some (.halted, 1, 5) := by decide
/-- vH3. -/
theorem test_alloc_takes_lowest_free :
    after (withArray (withArray (withArray ((prog [0x8000000A]).setReg 2 1) 1 []) 2 []) 4 [9])
      (fun t => (t.reg 1, t.mem.read 3 0, t.mem.read 4 0)) = some (3, some 0, some 9) := by decide
/-- vH4. -/
theorem test_alloc_reads_capacity_first :
    after ((prog [0x80000012]).setReg 2 3) (fun t => (t.reg 2, t.mem.lenOf 1)) = some (1, some 3) := by decide
/-- vH5. -/
theorem test_abandon_releases :
    after (withArray (withArray ((prog [0x90000004]).setReg 4 2) 1 []) 2 [1])
      (fun t => (t.mem.allocated 1, t.mem.allocated 2, t.reg 4)) = some (true, false, 2) := by decide
/-- vH6. -/
theorem test_abandon_zero_faults :
    after (prog [0x90000004]) faultView = some (.faulted, .outOfBoundsAccess, 1, 1) := by decide
/-- vO3. -/
theorem test_out_emits :
    after ((prog [0xA0000000]).setReg 0 0xFF) (fun t => (t.trace, t.pc)) = some ([255], 1) := by decide
/-- vO4. -/
theorem test_out_above_255_faults :
    after ((prog [0xA0000000]).setReg 0 0x100) (fun t => (faultView t, t.trace))
      = some ((.faulted, .undefinedBehavior, 1, 1), []) := by decide
/-- vI5. -/
theorem test_inp_zero_extends :
    after ({ (prog [0xB0000002]) with input := { answers := [.byte 255], tail := .exhausted } } : State)
      (fun t => (t.reg 2, t.input.answers)) = some (0xFF, []) := by decide
/-- Two INs of an infinite INPUT take two successive bytes of it (R6, R181). -/
theorem test_inp_endless (x y : Byte) (hx : Config.endlessInput 7 0 = x) (hy : Config.endlessInput 7 1 = y) :
    (runSteps 2 { (prog [0xB0000002, 0xB0000003]) with input := { answers := [], tail := .endless 7 0 } }).map
      (fun t => (t.reg 2, t.reg 3)) = some (byteOperand x, byteOperand y) := by
  subst hx hy
  rfl
/-- vI2. -/
theorem test_inp_at_end :
    after ((prog [0xB0000002]).setReg 2 5) (fun t => (t.reg 2, t.pc)) = some (0xFFFFFFFF, 1) := by decide
/-- vK5. -/
theorem test_loadprog_swaps :
    after (withArray (((prog [0xC0000013]).setReg 2 1).setReg 3 1) 1 [0, 0x70000000])
      (fun t => [t.mem.read 0 0, t.mem.read 0 1, t.mem.lenOf 0, t.mem.read 1 1, some t.pc])
      = some [some 0, some 0x70000000, some 2, some 0x70000000, some 1] := by decide
/-- vK6: the finger is the advanced one, not `x[C]`. -/
theorem test_loadprog_unallocated_faults :
    after ((prog [0xC0000013]).setReg 2 9) (fun t => (faultView t, t.mem.read 0 0))
      = some ((.faulted, .outOfBoundsAccess, 1, 1), some 0xC0000013) := by decide
/-- vX1, with the diagnostic's word and opcode. -/
theorem test_illegal14_faults_in_place :
    after (prog [0xE0000000]) (fun t => (faultView t, t.diag.insn.word, t.diag.insn.opcode))
      = some ((.faulted, .decodeError, 0, 0), 0xE0000000, 14) := by decide
/-- vX2. -/
theorem test_illegal15_faults_in_place :
    after ((prog [0xFFFFFFFF]).setReg 7 1) (fun t => (faultView t, t.reg 7))
      = some ((.faulted, .decodeError, 0, 0), 1) := by decide
/-- vX3: the empty program, whatever the open fields of the diagnostic hold. -/
theorem test_empty_program_faults :
    after (prog []) (fun t => (faultView t, t.diag.hasInsn)) = some ((.faulted, .outOfBoundsAccess, 0, 0), false) := by
  decide
/-- P2, last step: the diagnostic of the faulting AIDX. -/
theorem test_diagnostic_of_scenario_2 :
    after (withArray (((prog [0x100001CE]).setReg 1 1).setReg 6 5) 1 [0, 0, 0x2A, 0, 0]) (fun t => t.diag.insn)
      = some { word := 0x100001CE, opcode := 1, a := 7, b := 1, c := 6, xa := 0, xb := 1, xc := 5 } := by decide
/-- S-K: both scrolls give the words of P1. -/
theorem test_scrolls :
    binaryScroll [0xD0, 0, 0, 0x48, 0xD2, 0, 0, 0x0A] = some [0xD0000048, 0xD200000A] ∧
    textScroll ["11010000000000000000000001001000".toList, "11010010000000000000000000001010".toList]
      = some [0xD0000048, 0xD200000A] := by decide

/-! ## Witnesses: a state and operands that meet the hypotheses of each statement, at the edges of their ranges -/

theorem witness_DecoderInvertsEncoder :
    (12 : BitVec 4).toNat ≤ 12 ∧ (0xCFFFFFFF : Word).toNat / 2 ^ 28 ≤ 12 := by decide

theorem witness_UnusedBitsHaveNoEffect :
    (0xCFFFFE53 : Word).toNat / 2 ^ 28 ≤ 12 ∧
      (0xCFFFFE53 : Word) &&& 0xF00001FF = (0xC0000053 : Word) &&& 0xF00001FF := by decide

theorem witness_IllegalWordsRaiseDecodeError :
    (prog [0xE0000000]).status = .running ∧ (prog [0xE0000000]).fetch = some 0xE0000000 ∧
      0xE0000000 ≤ (0xE0000000 : Word).toNat ∧
    (prog [0xFFFFFFFF]).fetch = some 0xFFFFFFFF ∧ 0xE0000000 ≤ (0xFFFFFFFF : Word).toNat := by decide

theorem witness_StepRunsDecodedInstruction :
    (prog [0x70000000]).status = .running ∧
      (prog [0x70000000]).mem.read 0 (prog [0x70000000]).pc = some 0x70000000 := by decide

theorem witness_FetchPastEndFaults :
    (prog []).status = .running ∧ (prog []).mem.lenOf 0 = some 0 ∧ (0 : Word) ≤ (prog []).pc ∧
    ((prog [5]).setPc 0xFFFFFFFF).mem.lenOf 0 = some 1 ∧
      (1 : Word) ≤ ((prog [5]).setPc 0xFFFFFFFF).pc := by decide

theorem witness_TerminalStatusHasNoStep :
    (State.reset.setStatus .halted).status = .halted ∧
      (State.reset.setStatus .faulted).status = .faulted := by decide

theorem witness_RunningStepHasOneOfThreeOutcomes : State.reset.status = .running := by decide

/-- The fetch fault, the decode fault and a dispatch fault. -/
theorem witness_FaultsArePrecise :
    (∃ t, step (prog []) = .next t ∧ t.status = .faulted ∧ t.diag.hasInsn = false) ∧
    (∃ t, step (prog [0xE0000000]) = .next t ∧ t.status = .faulted ∧ t.diag.kind = .decodeError) ∧
    (∃ t, step (prog [0x50000053]) = .next t ∧ t.status = .faulted ∧ t.diag.hasInsn = true ∧
      t.diag.kind ≠ .decodeError) :=
  ⟨⟨_, rfl, by decide, by decide⟩, ⟨_, rfl, by decide, by decide⟩,
    ⟨_, rfl, by decide, by decide, by decide⟩⟩

/-- DIV (opcode 5), LOADPROG (12) and OUT (10): one word for each clause. -/
theorem witness_DiagnosticRecordsFetchedPlatter :
    (∃ t, step (prog [0x50000053]) = .next t ∧ t.status = .faulted) ∧
    (∃ t, step ((prog [0xC0000013]).setReg 2 9) = .next t ∧ t.status = .faulted) ∧
    (∃ t, step ((prog [0xA0000000]).setReg 0 0x100) = .next t ∧ t.status = .faulted) :=
  ⟨⟨_, rfl, by decide⟩, ⟨_, rfl, by decide⟩, ⟨_, rfl, by decide⟩⟩

theorem witness_OnlyLoadProgramRedirectsFinger :
    ∃ t, (prog [0x30000053]).fetch = some 0x30000053 ∧ step (prog [0x30000053]) = .next t ∧
      t.status ≠ .faulted ∧ (0x30000053 : Word).toNat / 2 ^ 28 ≠ 12 :=
  ⟨_, by decide, rfl, by decide, by decide⟩

theorem witness_OnlyIoOperationsTouchBoundary :
    ∃ t, step ((prog [0xA0000000]).setReg 0 0xFF) = .next t ∧ t.trace ≠ [] := ⟨_, rfl, by decide⟩

theorem witness_OnlyHeapOperationsChangeHeap :
    ∃ t, step (prog [0x8000000A]) = .next t ∧ t.mem.allocated 1 = true := ⟨_, rfl, by decide⟩

theorem witness_OnlyDestinationRegisterWritten :
    ∃ t, step (prog [0xD2000007]) = .next t ∧ t.reg 1 ≠ (prog [0xD2000007]).reg 1 := ⟨_, rfl, by decide⟩

theorem witness_CmovMovesWhenConditionNonzero :
    (State.reset.setReg 3 0x80000000).reg 3 ≠ 0 ∧ State.reset.reg 3 = 0 := by decide

/-- The last offset of an array; offset = length; no such array. -/
theorem witness_AidxLoadsPlatterOrFaults :
    (∃ s : State, s.mem.lenOf (s.reg 1) = some 2 ∧ s.reg 3 < 2) ∧
    (∃ s : State, s.mem.lenOf (s.reg 1) = some 2 ∧ 2 ≤ s.reg 3) ∧
    (∃ s : State, s.mem.allocated (s.reg 1) = false) :=
  ⟨⟨withArray ((State.reset.setReg 1 1).setReg 3 1) 1 [7, 8], by decide, by decide⟩,
    ⟨withArray ((State.reset.setReg 1 1).setReg 3 2) 1 [7, 8], by decide, by decide⟩,
    ⟨State.reset.setReg 1 1, by decide⟩⟩

theorem witness_AmendStoresPlatterOrFaults :
    (∃ s : State, s.mem.lenOf (s.reg 1) = some 2 ∧ s.reg 3 < 2) ∧
    (∃ s : State, s.mem.lenOf (s.reg 1) = some 0 ∧ 0 ≤ s.reg 3) ∧
    (∃ s : State, s.mem.allocated (s.reg 1) = false) :=
  ⟨⟨withArray ((State.reset.setReg 1 1).setReg 3 1) 1 [7, 8], by decide, by decide⟩,
    ⟨withArray (State.reset.setReg 1 1) 1 [], by decide, by decide⟩,
    ⟨State.reset.setReg 1 0xFFFFFFFF, by decide⟩⟩

theorem witness_StoredPlatterIsFetchedNext :
    ∃ s : State, s.status = .running ∧ s.reg 0 = 0 ∧ s.reg 1 = s.pc + 1 ∧ s.mem.lenOf 0 = some 2 ∧
      s.reg 1 < 2 :=
  ⟨(prog [0x2000000A, 0xF0000000]).setReg 1 1, by decide, by decide, by decide, by decide, by decide⟩

theorem witness_DivIsFloorQuotientOrFaults :
    (State.reset.setReg 3 1).reg 3 ≠ 0 ∧ State.reset.reg 3 = 0 := by decide

theorem witness_DivQuotientIsUnique : (State.reset.setReg 3 0xFFFFFFFF).reg 3 ≠ 0 := by decide

/-- A machine with every identifier in use. -/
def fullHeap : Memory :=
  { arrays := (List.range (2 ^ 32)).map (fun k => (k, PlatterArray.zeroed 0)) }

theorem fullHeap_allocated (j : Word) : fullHeap.allocated j = true := by
  rw [Memory.allocated, Memory.arrayAt, assocFind_isSome_iff, fullHeap, List.map_map]
  exact List.mem_map.2 ⟨j.toNat, List.mem_range.2 j.isLt, rfl⟩

/-- Identifier 1 is the least free one, with the storage exactly full afterwards; and no identifier is free. -/
theorem witness_AllocReturnsLeastFreeIdentifier :
    (∃ s : State, (1 : Word) ≠ 0 ∧ s.mem.allocated 1 = false ∧
      (∀ j : Word, j ≠ 0 → j < 1 → s.mem.allocated j = true) ∧
      ∀ most : Nat, s.params.heapWordsMax = some most → s.mem.totalWords + (s.reg 2).toNat ≤ most) ∧
    (∃ s : State, ∀ j : Word, j ≠ 0 → s.mem.allocated j = true) := by
  refine ⟨⟨{ State.reset.setReg 2 5 with params := { heapWordsMax := some 5 } }, by decide, by decide,
    fun j h0 h1 => ?_, fun most h => ?_⟩, ⟨State.reset.setMem fullHeap, fun j _ => fullHeap_allocated j⟩⟩
  · exfalso
    apply h0
    apply BitVec.eq_of_toNat_eq
    rw [BitVec.lt_def] at h1
    simpa using h1
  · cases h
    decide

theorem witness_AbandonReleasesArrayOrFaults :
    (∃ s : State, s.reg 4 ≠ 0 ∧ s.mem.allocated (s.reg 4) = true) ∧
    (∃ s : State, s.reg 4 = 0) ∧ (∃ s : State, s.mem.allocated (s.reg 4) = false) :=
  ⟨⟨withArray (State.reset.setReg 4 1) 1 [], by decide, by decide⟩, ⟨State.reset, by decide⟩,
    ⟨State.reset.setReg 4 0xFFFFFFFF, by decide⟩⟩

theorem reset_onlyArray0 (id : Word) : State.reset.mem.allocated id = true ↔ id = 0 := by
  have h : State.reset.mem.arrayAt id = if id = 0 then some { len := 0, cells := [] } else none :=
    onlyArray0_arrayAt _ id
  rw [Memory.allocated, h]
  split <;> simp_all

/-- Only array 0 allocated (k = 0); ABANDON then ALLOC; ALLOC twice. -/
theorem witness_AllocAbandonSequencesReturnLowestIdentifiers :
    ((∀ j : Word, State.reset.mem.allocated j = true ↔ j ≤ 0) ∧
      ∃ t, exec (.alloc 0 1 2) State.reset = .next t ∧ t.status = .running) ∧
    (∃ t u, exec (.abandon 0 0 4) (withArray (State.reset.setReg 4 1) 1 []) = .next t ∧
      t.status = .running ∧ exec (.alloc 0 1 2) t = .next u ∧ u.status = .running) ∧
    (∃ t u, exec (.alloc 0 1 2) State.reset = .next t ∧ t.status = .running ∧
      exec (.alloc 0 3 2) t = .next u ∧ u.status = .running) := by
  refine ⟨⟨fun j => ?_, _, rfl, by decide⟩, ⟨_, _, rfl, by decide, rfl, by decide⟩,
    ⟨_, _, rfl, by decide, rfl, by decide⟩⟩
  rw [reset_onlyArray0]
  exact ⟨fun h => h ▸ BitVec.le_refl _, fun h => BitVec.le_zero_iff.1 h⟩

theorem witness_FiniteStorageExhausts :
    (∃ s : State, s.params.heapWordsMax = some 5 ∧ 5 < s.mem.totalWords + (s.reg 2).toNat) ∧
    (∃ s : State, s.mem.wf ∧ s.params.heapWordsMax = some 3 ∧ s.reg 2 ≠ 0 ∧ s.mem.lenOf 0 = some 1 ∧
      s.mem.lenOf (s.reg 2) = some 2 ∧
      3 + (1 : Word).toNat < s.mem.totalWords + (2 : Word).toNat) :=
  ⟨⟨{ State.reset.setReg 2 6 with params := { heapWordsMax := some 5 } }, by decide, by decide⟩,
    ⟨{ withArray ((prog [0xC0000013]).setReg 2 1) 1 [7, 8] with params := { heapWordsMax := some 3 } },
      by decide, by decide, by decide, by decide, by decide, by decide⟩⟩

theorem witness_OutEmitsByteOrFaults :
    (∃ s : State, (s.reg 0).toNat ≤ 255 ∧ s.outAnswers.head? ≠ some .failed) ∧
    (∃ s : State, 255 < (s.reg 0).toNat) ∧
    (∃ s : State, (s.reg 0).toNat ≤ 255 ∧ s.outAnswers.head? = some .failed) :=
  ⟨⟨State.reset.setReg 0 255, by decide, by decide⟩, ⟨State.reset.setReg 0 256, by decide⟩,
    ⟨{ State.reset with outAnswers := [.failed] }, by decide, by decide⟩⟩

theorem witness_InDeliversByteOrEndOfInput :
    (∃ s : State, s.input.answers = .byte 255 :: []) ∧
    (∃ s : State, s.input.answers.head? = some .endOfInput) ∧
    (∃ s : State, s.input.answers = [] ∧ s.input.tail = .endless 0 0) ∧
    (∃ s : State, s.input.answers = [] ∧ s.input.tail = .exhausted) ∧
    (∃ s : State, s.input.answers.head? = some .failed) ∧
    (∃ s : State, s.input.answers = [] ∧ s.input.tail = .silent) :=
  ⟨⟨State.reset.setInput { answers := [.byte 255], tail := .silent }, by decide⟩,
    ⟨State.reset.setInput { answers := [.endOfInput], tail := .exhausted }, by decide⟩,
    ⟨State.reset.setInput { answers := [], tail := .endless 0 0 }, by decide, by decide⟩,
    ⟨State.reset, by decide, by decide⟩,
    ⟨State.reset.setInput { answers := [.failed], tail := .exhausted }, by decide⟩,
    ⟨State.reset.setInput { answers := [], tail := .silent }, by decide, by decide⟩⟩

theorem witness_EndOfInputStays :
    (∃ src rest : InputSource, src.wf = true ∧ src.take = .endOfInput rest) ∧
    (∃ s t : State, s.input.ended = true ∧ step s = .next t) :=
  ⟨⟨{ answers := [.endOfInput, .failed], tail := .exhausted }, _, by decide, rfl⟩,
    ⟨prog [0xB0000002], _, by decide, rfl⟩⟩

theorem witness_RunDependsOnlyOnAnswersRead : 1 ≤ [InputAnswer.byte 72].length := by decide

theorem witness_LoadProgramJumpsOrSwaps :
    (∃ s : State, s.reg 2 = 0) ∧
    (∃ s : State, s.reg 2 ≠ 0 ∧ s.mem.lenOf (s.reg 2) = some 0 ∧
      ∀ m : Memory, s.mem.copyTo0 (s.reg 2) = some m → storageFits s.params m = true) ∧
    (∃ s : State, s.reg 2 ≠ 0 ∧ s.mem.allocated (s.reg 2) = false) :=
  ⟨⟨State.reset, by decide⟩,
    ⟨withArray (State.reset.setReg 2 1) 1 [], by decide, by decide, fun _ _ => rfl⟩,
    ⟨State.reset.setReg 2 9, by decide, by decide⟩⟩

theorem witness_LoadedProgramIsIndependentCopy :
    ∃ s t : State, s.status = .running ∧ s.reg 2 ≠ 0 ∧ exec (.loadprog 0 2 3) s = .next t ∧
      t.status = .running ∧ (t.mem.write (s.reg 2) 0 5).isSome = true ∧ (t.mem.write 0 0 5).isSome = true :=
  ⟨withArray (State.reset.setReg 2 1) 1 [7], _, by decide, by decide, rfl, by decide, by decide, by decide⟩

theorem witness_CmovThenLoadProgramBranches :
    State.reset.reg 0 = 0 ∧ (0 : RegIdx) ≠ 7 ∧ (State.reset.setReg 1 5).reg 0 = 0 := by decide

theorem witness_LoadLeavesResetState : ([0x70000000, 0] : List Word).length ≤ 2 ^ 32 - 1 := by decide

/-- A load; the fetch of an empty program; an ALLOC of 5 platters that exactly fills the storage. -/
theorem witness_FirstAllocReturnsOne :
    (∃ s, State.load [0x8000000A] State.reset.input [] { heapWordsMax := some 1 } = some s) ∧
    (∃ s t : State, (∀ id : Word, s.mem.allocated id = true ↔ id = 0) ∧ step s = .next t ∧
      ∀ w, s.fetch = some w → w.toNat / 2 ^ 28 ≠ 8) ∧
    (∃ s : State, (∀ id : Word, s.mem.allocated id = true ↔ id = 0) ∧ s.reg 2 = 5 ∧
      ∀ most : Nat, s.params.heapWordsMax = some most → s.mem.totalWords + (s.reg 2).toNat ≤ most) :=
  ⟨⟨_, rfl⟩, ⟨State.reset, _, reset_onlyArray0, rfl, fun _ h => by cases h⟩,
    ⟨{ State.reset.setReg 2 5 with params := { heapWordsMax := some 5 } }, reset_onlyArray0, by decide,
      fun _ h => by cases h; decide⟩⟩

theorem witness_BinaryScrollIsBigEndian : ([0xD0, 0, 0, 0x48] : List Byte).length % 4 = 0 := by decide

theorem witness_TextScrollIsMostSignificantFirst :
    ∀ line ∈ [List.replicate 32 '1'], textLineOk line = true := by decide

theorem witness_LoadEstablishesInvariant :
    ∃ s, State.load [5] State.reset.input [] Config.defaultParams = some s ∧
      State.reset.input.wf = true ∧
      ∀ most : Nat, Config.defaultParams.heapWordsMax = some most → ([5] : List Word).length ≤ most :=
  ⟨_, rfl, by decide, fun _ h => by cases h⟩

theorem witness_StepKeepsInvariant : ∃ t, (prog [0x8000000A]).Inv ∧ step (prog [0x8000000A]) = .next t :=
  ⟨_, by decide, rfl⟩

/-- A load, an ALLOC of identifier 1, an ABANDON of it, a store. -/
theorem witness_HeapInvariantsHold :
    (∃ s, State.load [5] State.reset.input [] Config.defaultParams = some s) ∧
    (∃ s t : State, s.mem.wf ∧ s.mem.allocated 0 = true ∧ step s = .next t ∧
      s.mem.allocated 1 = false ∧ t.mem.allocated 1 = true) ∧
    (∃ s t : State, step s = .next t ∧ s.mem.allocated 1 = true ∧ t.mem.allocated 1 = false) ∧
    (∃ m m' : Memory, m.write 1 0 5 = some m' ∧ (0 : Word) ≠ 1) :=
  ⟨⟨_, rfl⟩, ⟨prog [0x8000000A], _, by decide, by decide, rfl, by decide, by decide⟩,
    ⟨withArray ((prog [0x90000004]).setReg 4 1) 1 [], _, rfl, by decide, by decide⟩,
    ⟨(withArray State.reset 1 [7]).mem, _, rfl, by decide⟩⟩

theorem witness_ArrayLengthsAreImmutable :
    ∃ s t : State, (1 : Word) ≠ 0 ∧ step s = .next t ∧ s.mem.allocated 1 = true ∧
      t.mem.allocated 1 = true ∧ t.mem.read 1 0 ≠ s.mem.read 1 0 :=
  ⟨withArray (((prog [0x2000005C]).setReg 1 1).setReg 4 9) 1 [7], _, by decide, rfl, by decide, by decide,
    by decide⟩

end Sys2Proof.Machine.Tests
end

