-- ==== Sys2Proof/Proofs/State.lean ====
section
/-! PROOFS. The statements of `10_state.md`. `ExecEffect` names the cases of `exec_cases`, and `ArrayChange` says what a step can do
to the array of one identifier; the statements about the heap are read off the latter. -/

namespace Sys2Proof.Machine

open Sys2Proof

/-! ## The fields of a fetched platter -/

theorem opField_toNat (w : Word) : (opField w).toNat = w.toNat / 2 ^ 28 := by
  have hw := w.isLt
  simp only [opField, BitVec.extractLsb'_toNat, Nat.shiftRight_eq_div_pow]
  omega

/-- The opcode of the decoded instruction is the number in the platter's upper four bits (`30_encoding.md` R91, R99). -/
theorem decode_opcode_toNat (w : Word) : (decode w).opcode.toNat = w.toNat / 2 ^ 28 := by
  rw [decode_opcode, opField_toNat]

/-- A regular instruction carries the three fields of its platter (`30_encoding.md` R92, R99). -/
theorem decode_regularFields {w : Word} {a b c : RegIdx} (h : instrRegularFields (decode w) = some (a, b, c)) :
    a = fieldA w ∧ b = fieldB w ∧ c = fieldC w := by
  unfold decode at h
  split at h <;> simp_all [instrRegularFields]

/-! ## Fault entry from its two places -/

@[simp] theorem dispatchFault_eq_takeFault (s : State) (k : FaultKind) :
    s.dispatchFault k = s.takeFault k (s.pc + 1) := rfl

@[simp] theorem earlyFault_eq_takeFault (s : State) (k : FaultKind) : s.earlyFault k = s.takeFault k s.pc := rfl

/-! ## What an instruction can do, with its cases named -/

/-- The next states of instruction `i` from `s`: the cases of `exec_cases`, one constructor each. -/
inductive ExecEffect (s : State) : Instr → State → Prop where
  /-- A fault raised in dispatch. -/
  | fault {i : Instr} (k : FaultKind) (hk : k ≠ .decodeError) : ExecEffect s i (s.dispatchFault k)
  /-- Opcodes 14 and 15. -/
  | illegal {i : Instr} (hi : i = .illegal14 ∨ i = .illegal15) : ExecEffect s i (s.earlyFault .decodeError)
  /-- An IN whose host has not answered (log entry 8). -/
  | waiting (a b c : RegIdx) (htake : s.input.take = .waiting) : ExecEffect s (.inp a b c) s
  /-- A CMOV whose condition does not hold. -/
  | skipped (a b c : RegIdx) (hc : s.reg c = 0) : ExecEffect s (.cmov a b c) s.advance
  /-- An operation that writes one register and touches nothing else. -/
  | written {i : Instr} (r : RegIdx) (v : Word) (hr : instrWrittenReg i = some r)
      (hop : i.opcode.toNat ∉ [8, 11]) : ExecEffect s i (s.advance.setReg r v)
  | amended (a b c : RegIdx) (m : Memory) (hw : s.mem.write (s.reg a) (s.reg b) (s.reg c) = some m) :
      ExecEffect s (.amend a b c) (s.advance.setMem m)
  | halted (a b c : RegIdx) : ExecEffect s (.halt a b c) (s.advance.setStatus .halted)
  | allocated (a b c : RegIdx) (id : Word) (hid : s.mem.lowestFreeId = some id)
      (hfits : storageFits s.params (s.mem.alloc id (s.reg c)) = true) :
      ExecEffect s (.alloc a b c) ((s.advance.setMem (s.mem.alloc id (s.reg c))).setReg b id)
  | abandoned (a b c : RegIdx) (h0 : s.reg c ≠ 0) (ha : s.mem.allocated (s.reg c) = true) :
      ExecEffect s (.abandon a b c) (s.advance.setMem (s.mem.free (s.reg c)))
  | emitted (a b c : RegIdx) (hc : (s.reg c).toNat ≤ 255) (hacc : s.outAnswers.head? ≠ some .failed) :
      ExecEffect s (.out a b c)
        { s.advance with trace := s.trace ++ [(s.reg c).extractLsb' 0 8], outAnswers := s.outAnswers.tail }
  | delivered (a b c : RegIdx) (rest : InputSource) (v : Word)
      (htake : (∃ e, s.input.take = .byte e rest ∧ v = byteOperand e) ∨
        (s.input.take = .endOfInput rest ∧ v = endOfInputValue)) :
      ExecEffect s (.inp a b c) ((s.advance.setInput rest).setReg c v)
  | jumped (a b c : RegIdx) (h0 : s.reg b = 0) : ExecEffect s (.loadprog a b c) (s.advance.setPc (s.reg c))
  | loaded (a b c : RegIdx) (m : Memory) (h0 : s.reg b ≠ 0) (hm : s.mem.copyTo0 (s.reg b) = some m)
      (hfits : storageFits s.params m = true) :
      ExecEffect s (.loadprog a b c) ((s.advance.setMem m).setPc (s.reg c))

theorem exec_effect {i : Instr} {s t : State} (h : exec i s = .next t) : ExecEffect s i t := by
  rcases exec_cases h with ⟨k, hk, rfl⟩ | ⟨hi, rfl⟩ | ⟨a, b, c, rfl, ht, rfl⟩ | ⟨a, b, c, rfl, hc, rfl⟩ |
    ⟨r, v, hr, hop, rfl⟩ | ⟨a, b, c, m, rfl, hw, rfl⟩ | ⟨a, b, c, rfl, rfl⟩ | ⟨a, b, c, id, rfl, hid, hf, rfl⟩ |
    ⟨a, b, c, rfl, h0, ha, rfl⟩ | ⟨a, b, c, rfl, hc, hacc, rfl⟩ | ⟨a, b, c, rest, v, rfl, ht, rfl⟩ |
    ⟨a, b, c, rfl, h0, rfl⟩ | ⟨a, b, c, m, rfl, h0, hm, hf, rfl⟩
  · exact .fault k hk
  · exact .illegal hi
  · exact .waiting a b c ht
  · exact .skipped a b c hc
  · exact .written r v hr hop
  · exact .amended a b c m hw
  · exact .halted a b c
  · exact .allocated a b c id hid hf
  · exact .abandoned a b c h0 ha
  · exact .emitted a b c hc hacc
  · exact .delivered a b c rest v ht
  · exact .jumped a b c h0
  · exact .loaded a b c m h0 hm hf

/-- Every next state of a step: the fetch fault, or an effect of the fetched platter's instruction. -/
theorem step_effect {s t : State} (h : step s = .next t) :
    (s.fetch = none ∧ t = s.earlyFault .outOfBoundsAccess) ∨
      ∃ w, s.fetch = some w ∧ ExecEffect s (decode w) t :=
  (step_cases h).2.imp_right fun ⟨w, hf, he⟩ => ⟨w, hf, exec_effect he⟩

/-- A write of one register changes only that one. -/
theorem eq_of_setReg_reg_ne {s : State} {q r : RegIdx} {v : Word} (h : (s.setReg q v).reg r ≠ s.reg r) : q = r := by
  by_contra hqr
  exact h (setReg_reg_other s q r v (Ne.symm hqr))

/-- A heap no larger than one that fits also fits. -/
theorem storageFits_of_le {p : Params} {m m' : Memory} (hle : m'.totalWords ≤ m.totalWords)
    (h : storageFits p m = true) : storageFits p m' = true := by
  unfold storageFits at h ⊢
  split at h
  · rfl
  · exact decide_eq_true (hle.trans (of_decide_eq_true h))

namespace ExecEffect

variable {i : Instr} {s t : State}

/-! ## Parameters, registers, finger, input -/

theorem params_eq (h : ExecEffect s i t) : t.params = s.params := by
  cases h <;> simp

theorem writtenReg_of_reg_ne (h : ExecEffect s i t) {r : RegIdx} (hne : t.reg r ≠ s.reg r) :
    instrWrittenReg i = some r := by
  cases h with
  | written q v hq hop => rw [hq, eq_of_setReg_reg_ne hne]
  | allocated a b c id hid hfits => exact congrArg some (eq_of_setReg_reg_ne hne)
  | delivered a b c rest v htake => exact congrArg some (eq_of_setReg_reg_ne hne)
  | emitted a b c hc hacc => exact absurd rfl hne
  | _ => simp at hne

/-- The finger of an operation that completes and is not LOADPROG (`10_state.md` R27). -/
theorem pc_eq_succ_or_waiting (h : ExecEffect s i t) (hs : t.status ≠ .faulted) (hi : i.opcode.toNat ≠ 12) :
    t.pc = s.pc + 1 ∨ (i.opcode.toNat = 11 ∧ s.input.take = .waiting ∧ t = s) := by
  cases h with
  | fault k hk => simp at hs
  | illegal hill => simp at hs
  | waiting a b c htake => exact .inr ⟨rfl, htake, rfl⟩
  | jumped a b c h0 => exact absurd rfl hi
  | loaded a b c m h0 hm hfits => exact absurd rfl hi
  | _ => exact .inl (by simp)

theorem input_wf (h : ExecEffect s i t) (hw : s.input.wf = true) : t.input.wf = true := by
  cases h with
  | delivered a b c rest v htake => simpa using take_keeps_wf hw (htake.imp (fun ⟨e, he, _⟩ => ⟨e, he⟩) And.left)
  | _ => simpa using hw

/-! ## The whole heap -/

theorem mem_wf (h : ExecEffect s i t) (hw : s.mem.wf) : t.mem.wf := by
  cases h with
  | amended a b c m hm => exact write_wf hw hm
  | allocated a b c id hid hfits => exact alloc_wf _ _ _ hw
  | abandoned a b c h0 ha => exact free_wf _ _ hw
  | loaded a b c m h0 hm hfits => exact copyTo0_wf hw hm
  | _ => simpa using hw

/-- The storage bound (`20_memory.md` R71): only ALLOC and LOADPROG can make the heap larger, and they check it. -/
theorem storageFits_of_wf (h : ExecEffect s i t) (hw : s.mem.wf) (hs : storageFits s.params s.mem = true) :
    storageFits t.params t.mem = true := by
  cases h with
  | amended a b c m hm => exact storageFits_of_le (totalWords_write hw hm).le hs
  | allocated a b c id hid hfits => exact hfits
  | abandoned a b c h0 ha => exact storageFits_of_le (totalWords_free_le _ _) hs
  | loaded a b c m h0 hm hfits => exact hfits
  | _ => simpa using hs

/-- While only identifier 0 is allocated, an operation other than ALLOC keeps the number of platters: an ABANDON or a LOADPROG of
another array faults. -/
theorem totalWords_of_onlyArray0 (h : ExecEffect s i t) (h0 : ∀ id : Word, s.mem.allocated id = true ↔ id = 0)
    (hi : i.opcode.toNat ≠ 8) (hw : s.mem.wf) : t.mem.totalWords = s.mem.totalWords := by
  cases h with
  | amended a b c m hm => exact totalWords_write hw hm
  | allocated a b c id hid hfits => exact absurd rfl hi
  | abandoned a b c hc ha => exact absurd ((h0 _).1 ha) hc
  | loaded a b c m hb hm hfits =>
    rcases copyTo0_cases s.mem (s.reg b) with ⟨-, hn⟩ | ⟨p, -, hp, -⟩
    · rw [hn] at hm; cases hm
    · exact absurd ((h0 _).1 ((allocated_iff _ _).2 ⟨p, hp⟩)) hb
  | _ => simp

end ExecEffect

/-! ## The array of one identifier -/

/-- What a step can do to the array that `id` names (`10_state.md` R34, R35). -/
inductive ArrayChange (s t : State) (id : Word) : Prop where
  | same (heq : t.mem.arrayAt id = s.mem.arrayAt id)
  /-- AMEND through `id`. -/
  | stored (w : Word) (p : PlatterArray) (off : Nat) (v : Word) (hf : s.fetch = some w)
      (hop : w.toNat / 2 ^ 28 = 2) (hid : s.reg (fieldA w) = id) (hs : s.mem.arrayAt id = some p)
      (ht : t.mem.arrayAt id = some (p.set off v))
  /-- ALLOC that returns `id`. -/
  | created (w cap : Word) (hf : s.fetch = some w) (hop : w.toNat / 2 ^ 28 = 8) (hid : t.reg (fieldB w) = id)
      (hs : s.mem.arrayAt id = none) (ht : t.mem.arrayAt id = some (PlatterArray.zeroed cap))
  /-- ABANDON of `id`. -/
  | released (w : Word) (hf : s.fetch = some w) (hop : w.toNat / 2 ^ 28 = 9) (hid : s.reg (fieldC w) = id)
      (h0 : id ≠ 0) (hs : s.mem.allocated id = true) (ht : t.mem.arrayAt id = none)
  /-- LOADPROG's copy to array 0. -/
  | replaced (w : Word) (p : PlatterArray) (hf : s.fetch = some w) (hop : w.toNat / 2 ^ 28 = 12) (h0 : id = 0)
      (hs : s.mem.arrayAt (s.reg (fieldB w)) = some p) (ht : t.mem.arrayAt id = some p)

/-- A write touches the array of its own identifier alone (`10_state.md` R35 (d)). -/
theorem write_arrayAt {m m' : Memory} {id off v : Word} (h : m.write id off v = some m') :
    (∃ p, m.arrayAt id = some p ∧ m'.arrayAt id = some (p.set off.toNat v)) ∧
      ∀ j, j ≠ id → m'.arrayAt j = m.arrayAt j := by
  rcases write_cases m id off v with ⟨hn, -⟩ | ⟨p, hp, -, he⟩
  · rw [hn] at h; cases h
  · rw [he] at h
    cases h
    exact ⟨⟨p, hp, arrayAt_put_self _ _ _⟩, fun j hj => arrayAt_put_other _ _ _ _ hj⟩

theorem ExecEffect.arrayChange {s t : State} {w : Word} (hf : s.fetch = some w) (h : ExecEffect s (decode w) t)
    (id : Word) : ArrayChange s t id := by
  generalize hi : decode w = i at h
  have hop : w.toNat / 2 ^ 28 = i.opcode.toNat := by rw [← hi, decode_opcode_toNat]
  have hfields : ∀ {a b c}, instrRegularFields i = some (a, b, c) → a = fieldA w ∧ b = fieldB w ∧ c = fieldC w :=
    fun hr => decode_regularFields (hi ▸ hr)
  cases h with
  | amended a b c m hw =>
    obtain ⟨rfl, -, -⟩ := hfields rfl
    obtain ⟨⟨p, hs, ht⟩, hother⟩ := write_arrayAt hw
    by_cases hid : id = s.reg (fieldA w)
    · subst hid
      exact .stored w p _ _ hf hop rfl hs ht
    · exact .same (hother id hid)
  | allocated a b c new hnew hfits =>
    obtain ⟨-, rfl, -⟩ := hfields rfl
    obtain ⟨-, hfree, -⟩ := lowestFreeId_some hnew
    by_cases hid : id = new
    · subst hid
      exact .created w (s.reg c) hf hop (by simp) hfree (by simp)
    · exact .same (alloc_arrayAt_other _ _ _ _ hid)
  | abandoned a b c h0 ha =>
    obtain ⟨-, -, rfl⟩ := hfields rfl
    by_cases hid : id = s.reg (fieldC w)
    · subst hid
      exact .released w hf hop rfl h0 ha (by simp)
    · exact .same (free_arrayAt_other _ _ _ hid)
  | loaded a b c m h0 hm hfits =>
    obtain ⟨-, rfl, -⟩ := hfields rfl
    rcases copyTo0_cases s.mem (s.reg (fieldB w)) with ⟨-, hn⟩ | ⟨p, m', hs, he, hzero, -, hother⟩
    · rw [hn] at hm; cases hm
    · obtain rfl : m' = m := Option.some.inj (he.symm.trans hm)
      by_cases hid : id = 0
      · exact .replaced w p hf hop hid hs (hid ▸ hzero)
      · exact .same (hother id hid)
  | _ => exact .same (by simp)

theorem step_arrayChange {s t : State} (h : step s = .next t) (id : Word) : ArrayChange s t id := by
  rcases step_effect h with ⟨-, rfl⟩ | ⟨w, hf, he⟩
  · exact .same (by simp)
  · exact he.arrayChange hf id

theorem allocated_eq_false_iff (m : Memory) (id : Word) : m.allocated id = false ↔ m.arrayAt id = none := by
  simp [Memory.allocated]

/-- What is read of an array depends on that array alone. -/
theorem sameArray_of_arrayAt_eq {m n : Memory} {id : Word} (h : n.arrayAt id = m.arrayAt id) : SameArray id m n := by
  simp [SameArray, Memory.lenOf, Memory.read, h]

/-! ## What every step keeps -/

section
variable {s t : State}

theorem step_params_eq (h : step s = .next t) : t.params = s.params := by
  rcases step_effect h with ⟨-, rfl⟩ | ⟨w, -, he⟩
  · simp
  · exact he.params_eq

theorem step_keeps_mem_wf (h : step s = .next t) (hw : s.mem.wf) : t.mem.wf := by
  rcases step_effect h with ⟨-, rfl⟩ | ⟨w, -, he⟩
  · simpa using hw
  · exact he.mem_wf hw

theorem step_keeps_input_wf (h : step s = .next t) (hw : s.input.wf = true) : t.input.wf = true := by
  rcases step_effect h with ⟨-, rfl⟩ | ⟨w, -, he⟩
  · simpa using hw
  · exact he.input_wf hw

theorem step_keeps_storageFits (h : step s = .next t) (hw : s.mem.wf) (hs : storageFits s.params s.mem = true) :
    storageFits t.params t.mem = true := by
  rcases step_effect h with ⟨-, rfl⟩ | ⟨w, -, he⟩
  · simpa using hs
  · exact he.storageFits_of_wf hw hs

/-- R35 (c), disappearance: an allocated identifier stays so unless a fetched ABANDON names it, which cannot be of 0. -/
theorem step_allocated_or_abandoned (h : step s = .next t) {id : Word} (ha : s.mem.allocated id = true) :
    t.mem.allocated id = true ∨
      (id ≠ 0 ∧ ∃ w, s.fetch = some w ∧ w.toNat / 2 ^ 28 = 9 ∧ s.reg (fieldC w) = id) := by
  cases step_arrayChange h id with
  | same heq => exact .inl (by simpa [Memory.allocated, heq] using ha)
  | stored w p off v hf hop hid hs ht => exact .inl ((allocated_iff _ _).2 ⟨_, ht⟩)
  | created w cap hf hop hid hs ht => exact .inl ((allocated_iff _ _).2 ⟨_, ht⟩)
  | released w hf hop hid h0 hs ht => exact .inr ⟨h0, w, hf, hop, hid⟩
  | replaced w p hf hop h0 hs ht => exact .inl ((allocated_iff _ _).2 ⟨_, ht⟩)

/-- R35 (c), appearance: an identifier other than 0 is allocated after a step only if it was before, or a fetched ALLOC
returned it. -/
theorem step_wasAllocated_or_created (h : step s = .next t) {id : Word} (h0 : id ≠ 0) (ha : t.mem.allocated id = true) :
    s.mem.allocated id = true ∨ ∃ w, s.fetch = some w ∧ w.toNat / 2 ^ 28 = 8 ∧ t.reg (fieldB w) = id := by
  cases step_arrayChange h id with
  | same heq => exact .inl (by simpa [Memory.allocated, heq] using ha)
  | stored w p off v hf hop hid hs ht => exact .inl ((allocated_iff _ _).2 ⟨_, hs⟩)
  | created w cap hf hop hid hs ht => exact .inr ⟨w, hf, hop, hid⟩
  | released w hf hop hid hne hs ht => exact .inl hs
  | replaced w p hf hop hid hs ht => exact absurd hid h0

/-- R35 (a). -/
theorem step_keeps_array0 (h : step s = .next t) (ha : s.mem.allocated 0 = true) : t.mem.allocated 0 = true := by
  rcases step_allocated_or_abandoned h ha with ht | ⟨h0, -⟩
  · exact ht
  · exact absurd rfl h0

theorem step_keeps_onlyArray0 (h : step s = .next t) (h0 : ∀ id : Word, s.mem.allocated id = true ↔ id = 0)
    (hop : ∀ w, s.fetch = some w → w.toNat / 2 ^ 28 ≠ 8) (id : Word) : t.mem.allocated id = true ↔ id = 0 := by
  constructor
  · intro ha
    by_contra hid
    rcases step_wasAllocated_or_created h hid ha with hs | ⟨w, hf, h8, -⟩
    · exact hid ((h0 id).1 hs)
    · exact hop w hf h8
  · rintro rfl
    exact step_keeps_array0 h ((h0 0).2 rfl)

end

/-- A canonical heap lists no identifier twice (`10_state.md` R35 (b)). -/
theorem wf_nodup_ids {m : Memory} (h : m.wf) : (m.arrays.map Prod.fst).Nodup :=
  List.pairwise_map.2 (h.1.imp Nat.ne_of_lt)

/-! ## Reset with a program -/

section
variable {program : List Word} {input : InputSource} {outAnswers : List OutputAnswer} {params : Params} {s : State}

theorem load_mem_wf (h : State.load program input outAnswers params = some s) : s.mem.wf := by
  obtain ⟨hlen, rfl⟩ := (load_eq_some _ _ _ _ _).1 h
  exact onlyArray0_wf _ (ofWords_wf _ hlen)

theorem load_onlyArray0 (h : State.load program input outAnswers params = some s) (id : Word) :
    s.mem.allocated id = true ↔ id = 0 := by
  obtain ⟨-, rfl⟩ := (load_eq_some _ _ _ _ _).1 h
  simp [Memory.allocated, onlyArray0_arrayAt]

theorem load_totalWords (h : State.load program input outAnswers params = some s) :
    s.mem.totalWords = program.length := by
  obtain ⟨hlen, rfl⟩ := (load_eq_some _ _ _ _ _).1 h
  simp [Memory.totalWords, ofWords_len _ hlen]

end

/-! ## ALLOC -/

/-- ALLOC completes when an identifier is free and the storage suffices (`44_heap_management.md` R170). -/
theorem exec_alloc_of_fits {s : State} {id : Word} (a b c : RegIdx) (hid : s.mem.lowestFreeId = some id)
    (hfits : storageFits s.params (s.mem.alloc id (s.reg c)) = true) :
    exec (.alloc a b c) s = .next ((s.advance.setMem (s.mem.alloc id (s.reg c))).setReg b id) := by
  simp [exec, execAlloc, hid, hfits]

theorem lowestFreeId_of_onlyArray0 {m : Memory} (h0 : ∀ id : Word, m.allocated id = true ↔ id = 0) :
    m.lowestFreeId = some 1 := by
  have h1 : m.arrayAt 1 = none := by
    rw [← allocated_eq_false_iff, Bool.eq_false_iff]
    exact fun ha => absurd ((h0 1).1 ha) (by decide)
  refine lowestFreeId_eq (by decide) h1 fun j hj hlt => absurd ?_ hj
  rw [BitVec.lt_def] at hlt
  exact BitVec.eq_of_toNat_eq (by simpa using hlt)

theorem storageFits_alloc {s : State} {id cap : Word} (hid : s.mem.arrayAt id = none)
    (hmost : ∀ most : Nat, s.params.heapWordsMax = some most → s.mem.totalWords + cap.toNat ≤ most) :
    storageFits s.params (s.mem.alloc id cap) = true := by
  unfold storageFits
  split
  · rfl
  · rename_i most hm
    rw [totalWords_alloc _ _ _ hid]
    exact decide_eq_true (hmost most hm)

/-! ## The statements -/

/-- Settles O45: the heap's form, array 0, the source and the storage bound are each kept. -/
theorem stepKeepsInvariant : Obligations.StepKeepsInvariant := by
  unfold Obligations.StepKeepsInvariant
  rintro s t ⟨hwf, h0, hin, hfits⟩ h
  exact ⟨step_keeps_mem_wf h hwf, step_keeps_array0 h h0, step_keeps_input_wf h hin,
    step_keeps_storageFits h hwf hfits⟩

/-- Settles O46: (a) and (b) from the canonical form, (c) from what a step can do to the array of one identifier, (d) from the
write itself. -/
theorem heapInvariantsHold : Obligations.HeapInvariantsHold := by
  unfold Obligations.HeapInvariantsHold
  refine ⟨?reset, ?kept, ?appears, ?disappears, ?separate⟩
  case reset =>
    intro program input outAnswers params s h
    exact ⟨load_mem_wf h, load_onlyArray0 h⟩
  case kept =>
    intro s t hwf h0 h
    have hwf' := step_keeps_mem_wf h hwf
    exact ⟨hwf', step_keeps_array0 h h0, wf_nodup_ids hwf'⟩
  case appears =>
    intro s t id h0 h hs ht
    rcases step_wasAllocated_or_created h h0 ht with ha | hw
    · rw [hs] at ha; cases ha
    · exact hw
  case disappears =>
    intro s t id h hs ht
    rcases step_allocated_or_abandoned h hs with ha | ⟨-, hw⟩
    · rw [ht] at ha; cases ha
    · exact hw
  case separate =>
    intro m m' id j off v hw hj
    exact sameArray_of_arrayAt_eq ((write_arrayAt hw).2 j hj)

/-- Settles O11. -/
theorem onlyLoadProgramRedirectsFinger : Obligations.OnlyLoadProgramRedirectsFinger := by
  unfold Obligations.OnlyLoadProgramRedirectsFinger
  intro s t w _ hf h hs hop
  rcases step_effect h with ⟨hn, -⟩ | ⟨w', hf', he⟩
  · rw [hn] at hf; cases hf
  · obtain rfl : w' = w := Option.some.inj (hf'.symm.trans hf)
    rw [← decode_opcode_toNat] at hop ⊢
    exact he.pc_eq_succ_or_waiting hs hop

/-- Settles O14. -/
theorem onlyDestinationRegisterWritten : Obligations.OnlyDestinationRegisterWritten := by
  unfold Obligations.OnlyDestinationRegisterWritten
  intro s t _ h
  refine ⟨step_params_eq h, fun r hr => ?_⟩
  rcases step_effect h with ⟨-, rfl⟩ | ⟨w, hf, he⟩
  · simp at hr
  · exact ⟨w, hf, he.writtenReg_of_reg_ne hr⟩

/-- Settles O39: with only identifier 0 allocated the lowest free identifier is 1, and only an ALLOC ends that. -/
theorem firstAllocReturnsOne : Obligations.FirstAllocReturnsOne := by
  unfold Obligations.FirstAllocReturnsOne
  refine ⟨?reset, ?kept, ?first⟩
  case reset =>
    intro program input outAnswers params s h
    exact ⟨load_onlyArray0 h, load_totalWords h⟩
  case kept =>
    intro s t h0 h hop
    refine ⟨step_keeps_onlyArray0 h h0 hop, fun hwf => ?_⟩
    rcases step_effect h with ⟨-, rfl⟩ | ⟨w, hf, he⟩
    · simp
    · exact he.totalWords_of_onlyArray0 h0 (decode_opcode_toNat w ▸ hop w hf) hwf
  case first =>
    intro a b c s h0 hmost
    have hid := lowestFreeId_of_onlyArray0 h0
    obtain ⟨-, hfree, -⟩ := lowestFreeId_some hid
    exact ⟨_, exec_alloc_of_fits a b c hid (storageFits_alloc hfree hmost), by simp, by simp [Memory.lenOf]⟩

/-- Settles O47: of the changes a step can make to an array, only a store leaves it allocated before and after. -/
theorem arrayLengthsAreImmutable : Obligations.ArrayLengthsAreImmutable := by
  unfold Obligations.ArrayLengthsAreImmutable
  intro s t id h0 h hs ht
  cases step_arrayChange h id with
  | same heq =>
    have hsame := sameArray_of_arrayAt_eq heq
    exact ⟨hsame.1, .inl hsame⟩
  | stored w p off v hf hop hid hp hp' =>
    exact ⟨by simp [Memory.lenOf, hp, hp'], .inr ⟨w, hf, hop, hid⟩⟩
  | created w cap hf hop hid hnone hsome => simp [Memory.allocated, hnone] at hs
  | released w hf hop hid hne halloc hnone => simp [Memory.allocated, hnone] at ht
  | replaced w p hf hop hid hs ht => exact absurd hid h0

/-- Settles O7. -/
theorem terminalStatusHasNoStep : Obligations.TerminalStatusHasNoStep := by
  unfold Obligations.TerminalStatusHasNoStep
  constructor
  · intro s hs
    simp [step, hs]
  · intro s hs
    simp [step, hs]

end Sys2Proof.Machine
end

/-! PROOFS. The statements of `20_memory.md` on coherence, allocation, the storage bound and the copy to array 0. Each heap
operation's rule comes first; the instructions that use it follow, and the statements are read off those. -/

namespace Sys2Proof.Machine

open Sys2Proof

/-! ## The rules of the heap operations -/

theorem sameMemory_of_mem_eq {s t : State} (h : t.mem = s.mem) : SameMemory s t := by
  simp [SameMemory, h]

/-- What is read through an identifier is decided by the array it names, whichever identifier that is. -/
theorem read_eq_of_arrayAt_eq {m n : Memory} {i j : Word} (h : n.arrayAt j = m.arrayAt i) :
    n.lenOf j = m.lenOf i ∧ ∀ off, n.read j off = m.read i off := by
  simp [Memory.lenOf, Memory.read, h]

/-- A store below the length is accepted and read back (`20_memory.md` R63, R64). -/
theorem write_of_lt {m : Memory} {id off n : Word} (v : Word) (hlen : m.lenOf id = some n) (hlt : off < n) :
    ∃ m', m.write id off v = some m' ∧ m'.read id off = some v := by
  obtain ⟨p, hp, rfl⟩ := (lenOf_eq_some _ _ _).1 hlen
  rcases write_cases m id off v with ⟨-, hbad⟩ | ⟨q, hq, hlt', hw⟩
  · exact absurd hlt (BitVec.not_lt.2 (hbad p hp))
  · exact ⟨_, hw, (read_eq_some _ _ _ _).2 ⟨_, arrayAt_put_self _ _ _, hlt', set_get_self _ _ _⟩⟩

/-- A store through one identifier leaves every other array (`10_state.md` R35 (d)). -/
theorem write_sameArray {m m' : Memory} {id off v j : Word} (hw : m.write id off v = some m') (hj : j ≠ id) :
    SameArray j m m' :=
  sameArray_of_arrayAt_eq ((write_arrayAt hw).2 j hj)

/-- A new array holds 0 at every offset below its length (`20_memory.md` R67). -/
theorem alloc_read_self {m : Memory} {id cap off : Word} (h : off < cap) : (m.alloc id cap).read id off = some 0 :=
  (read_eq_some _ _ _ _).2 ⟨_, alloc_arrayAt_self _ _ _, h, zeroed_get _ _⟩

/-- No identifier is found when all from 1 on are allocated (`20_memory.md` R66); the converse is `lowestFreeId_none`. -/
theorem lowestFreeId_eq_none {m : Memory} (h : ∀ j : Word, j ≠ 0 → m.allocated j = true) : m.lowestFreeId = none := by
  cases hid : m.lowestFreeId with
  | none => rfl
  | some id =>
    obtain ⟨h0, hfree, -⟩ := lowestFreeId_some hid
    have hall := h id h0
    rw [(allocated_eq_false_iff _ _).2 hfree] at hall
    cases hall

/-- The copy gives array 0 what the source names and leaves every other identifier (`20_memory.md` R69). -/
theorem copyTo0_arrayAt {m m' : Memory} {id : Word} (h : m.copyTo0 id = some m') :
    (∃ p, m.arrayAt id = some p ∧ m'.arrayAt 0 = some p) ∧ ∀ j, j ≠ 0 → m'.arrayAt j = m.arrayAt j := by
  rcases copyTo0_cases m id with ⟨-, hn⟩ | ⟨p, m₁, hp, he, h0, -, hother⟩
  · rw [hn] at h; cases h
  · obtain rfl : m₁ = m' := Option.some.inj (he.symm.trans h)
    exact ⟨⟨p, hp, h0⟩, hother⟩

/-- The copy replaces the length of the old array 0 in the sum by the length of the source (`20_memory.md` R71). -/
theorem totalWords_copyTo0 {m : Memory} {id n0 n : Word} (hwf : m.wf) (h0 : m.lenOf 0 = some n0)
    (hn : m.lenOf id = some n) :
    ∃ m', m.copyTo0 id = some m' ∧ m'.totalWords + n0.toNat = m.totalWords + n.toNat := by
  obtain ⟨old, hold, rfl⟩ := (lenOf_eq_some _ _ _).1 h0
  obtain ⟨src, hsrc, rfl⟩ := (lenOf_eq_some _ _ _).1 hn
  have hput := totalWords_put (k := 0) src hwf.1
  rw [show assocFind 0 m.arrays = some old from hold] at hput
  exact ⟨_, by simp only [Memory.copyTo0, hsrc], hput⟩

theorem storageFits_eq_false {p : Params} {m : Memory} {most : Nat} (hp : p.heapWordsMax = some most)
    (hlt : most < m.totalWords) : storageFits p m = false := by
  simp [storageFits, hp, hlt]

/-! ## Fault entry as the statements say it -/

theorem takeFault_faultedWith (s : State) (k : FaultKind) (p : Word) : FaultedWith k p s (s.takeFault k p) :=
  ⟨by simp, by simp, by simp, by simp, fun r => by simp, sameMemory_of_mem_eq (by simp), by simp [SameIo], by simp⟩

/-- What a fault leaves with the finger advanced is a fault in dispatch (`60_exceptions.md` R208). -/
theorem FaultedWith.faultsInDispatch {k : FaultKind} {s t : State} (h : FaultedWith k (s.pc + 1) s t) :
    FaultsInDispatch k s t := by
  obtain ⟨hstatus, hkind, -, hpc, hrest⟩ := h
  exact ⟨hstatus, hkind, hpc, hrest⟩

theorem dispatchFault_faultedWith (s : State) (k : FaultKind) : FaultedWith k (s.pc + 1) s (s.dispatchFault k) :=
  takeFault_faultedWith s k (s.pc + 1)

/-! ## The instructions and the step -/

/-- A Running machine runs the platter it fetches (`40_execution_cycle.md` R120). -/
theorem step_of_fetch {s : State} {w : Word} (hs : s.status = .running) (hf : s.fetch = some w) :
    step s = exec (decode w) s := by
  simp [step, hs, hf]

theorem exec_amend_of_write {s : State} {a b c : RegIdx} {m : Memory}
    (hw : s.mem.write (s.reg a) (s.reg b) (s.reg c) = some m) : exec (.amend a b c) s = .next (s.advance.setMem m) := by
  simp [exec, execAmend, hw]

/-- ALLOC faults when no identifier is free or the new heap would not fit (`44_heap_management.md` R170, `20_memory.md` R71). -/
theorem exec_alloc_exhausted {s : State} (a b c : RegIdx)
    (h : ∀ id, s.mem.lowestFreeId = some id → storageFits s.params (s.mem.alloc id (s.reg c)) = false) :
    exec (.alloc a b c) s = .next (s.dispatchFault .allocationExhausted) := by
  cases hid : s.mem.lowestFreeId with
  | none => simp [exec, execAlloc, hid]
  | some id => simp [exec, execAlloc, hid, h id hid]

/-- LOADPROG faults when the heap after its copy would not fit (`46_control.md` R192, `20_memory.md` R71). -/
theorem exec_loadprog_exhausted {s : State} {b : RegIdx} {m : Memory} (a c : RegIdx) (h0 : s.reg b ≠ 0)
    (hm : s.mem.copyTo0 (s.reg b) = some m) (hfits : storageFits s.params m = false) :
    exec (.loadprog a b c) s = .next (s.dispatchFault .allocationExhausted) := by
  simp only [exec, execLoadprog, if_neg h0, hm, hfits, Bool.false_eq_true, if_false]

/-- A LOADPROG with a non-zero identifier that leaves the machine Running has made the copy. -/
theorem exec_loadprog_copied {s t : State} {a b c : RegIdx} (h0 : s.reg b ≠ 0) (h : exec (.loadprog a b c) s = .next t)
    (ht : t.status = .running) : s.mem.copyTo0 (s.reg b) = some t.mem := by
  cases exec_effect h with
  | fault k hk => simp at ht
  | illegal hi => simp at ht
  | written r v hr hop => cases hr
  | jumped _ _ _ hz => exact absurd hz h0
  | loaded _ _ _ m _ hm hfits => exact hm

/-! ## The statements -/

/-- Settles O19: the store is accepted, and the finger's next platter is the one it wrote. -/
theorem storedPlatterIsFetchedNext : Obligations.StoredPlatterIsFetchedNext := by
  unfold Obligations.StoredPlatterIsFetchedNext
  intro a b c s n hs ha hb hlen hlt
  obtain ⟨m, hw, hread⟩ := write_of_lt (s.reg c) (ha ▸ hlen) hlt
  refine ⟨_, exec_amend_of_write hw, step_of_fetch hs ?_⟩
  rwa [ha, hb] at hread

/-- Settles O25: the scan finds exactly the least free identifier, or none. -/
theorem allocReturnsLeastFreeIdentifier : Obligations.AllocReturnsLeastFreeIdentifier := by
  unfold Obligations.AllocReturnsLeastFreeIdentifier
  intro a b c s
  refine ⟨fun id h0 hfree hleast hmost => ?found, fun hall => ?full⟩
  case found =>
    rw [allocated_eq_false_iff] at hfree
    have hid := lowestFreeId_eq h0 hfree hleast
    refine ⟨_, exec_alloc_of_fits a b c hid (storageFits_alloc hfree hmost), by simp, by simp [Memory.lenOf],
      fun off hoff => alloc_read_self hoff, fun j hj => sameArray_of_arrayAt_eq (alloc_arrayAt_other _ _ _ _ hj),
      fun r hr => setReg_reg_other _ _ _ _ hr, by simp, by simp [SameIo], by simp [SameControl]⟩
  case full =>
    have hnone := lowestFreeId_eq_none hall
    exact ⟨_, exec_alloc_exhausted a b c (by simp [hnone]), (dispatchFault_faultedWith _ _).faultsInDispatch⟩

/-- Settles O28: the new heap's sum is the old one with the new array's length added, or the old array 0's replaced. -/
theorem finiteStorageExhausts : Obligations.FiniteStorageExhausts := by
  unfold Obligations.FiniteStorageExhausts
  refine ⟨?alloc, ?loadprog⟩
  case alloc =>
    intro a b c s most hmax hlt
    refine ⟨_, exec_alloc_exhausted a b c fun id hid => storageFits_eq_false hmax ?_, dispatchFault_faultedWith _ _⟩
    obtain ⟨-, hfree, -⟩ := lowestFreeId_some hid
    rwa [totalWords_alloc _ _ _ hfree]
  case loadprog =>
    intro a b c s most n0 n hwf hmax hb h0 hn hlt
    obtain ⟨m, hm, hsum⟩ := totalWords_copyTo0 hwf h0 hn
    have hfits := storageFits_eq_false hmax (by omega : most < m.totalWords)
    exact ⟨_, exec_loadprog_exhausted a c hb hm hfits, dispatchFault_faultedWith _ _⟩

/-- Settles O34: the copy names the source's platters under identifier 0, and the two identifiers differ. -/
theorem loadedProgramIsIndependentCopy : Obligations.LoadedProgramIsIndependentCopy := by
  unfold Obligations.LoadedProgramIsIndependentCopy
  intro a b c s t _ hb h ht
  obtain ⟨⟨p, hsrc, hzero⟩, hother⟩ := copyTo0_arrayAt (exec_loadprog_copied hb h ht)
  have hkept := hother _ hb
  obtain ⟨hlen, hread⟩ := read_eq_of_arrayAt_eq (hzero.trans hsrc.symm)
  exact ⟨hlen, hread, sameArray_of_arrayAt_eq hkept, (allocated_iff _ _).2 ⟨p, hkept.trans hsrc⟩,
    fun off v m hw => write_sameArray hw hb.symm, fun off v m hw => write_sameArray hw hb⟩

end Sys2Proof.Machine

/-! PROOFS. The statements of `30_encoding.md`: the encoder's words as numbers, what decoding and encoding give back, and the
illegal words. A regular instruction is treated by its opcode and its three fields, the same way for all thirteen operations. -/

namespace Sys2Proof.Machine

open Sys2Proof

/-! ## The encoder's words -/

theorem toNat_append_eq_add {m n : Nat} (x : BitVec m) (y : BitVec n) :
    (x ++ y).toNat = x.toNat * 2 ^ n + y.toNat := by
  rw [BitVec.toNat_append, ← Nat.shiftLeft_add_eq_or_of_lt y.isLt, Nat.shiftLeft_eq]

theorem toNat_encRegular (op : BitVec 4) (a b c : RegIdx) :
    (encRegular op a b c).toNat = op.toNat * 2 ^ 28 + a.toNat * 64 + b.toNat * 8 + c.toNat := by
  simp only [encRegular, toNat_append_eq_add, BitVec.ofNat_eq_ofNat, BitVec.toNat_zero]
  omega

theorem toNat_encOrth (a : RegIdx) (v : Imm) :
    (encOrth a v).toNat = 13 * 2 ^ 28 + a.toNat * 2 ^ 25 + v.toNat := by
  simp only [encOrth, toNat_append_eq_add, BitVec.reduceToNat]
  omega

/-- The fields of a platter put together again are the platter without bits 27:9 (`30_encoding.md` R92, R95). -/
theorem encRegular_fields (w : Word) :
    encRegular (opField w) (fieldA w) (fieldB w) (fieldC w) = w &&& 0xF00001FF := by
  ext i hi
  simp only [encRegular, opField, fieldA, fieldB, fieldC, ← BitVec.getLsbD_eq_getElem, BitVec.getLsbD_append,
    BitVec.getLsbD_extractLsb', BitVec.getLsbD_and]
  interval_cases i <;> simp

/-! ## Regular instructions, by opcode and fields -/

/-- Opcodes 0 to 12 have the regular format (`30_encoding.md` R92, R96). -/
theorem exists_regularFields {i : Instr} (h : i.opcode.toNat ≤ 12) :
    ∃ a b c, instrRegularFields i = some (a, b, c) := by
  cases i with
  | orth | illegal14 | illegal15 => simp [Instr.opcode] at h
  | _ => exact ⟨_, _, _, rfl⟩

/-- A regular instruction is encoded from its opcode and its fields (`30_encoding.md` R100). -/
theorem encode_of_regularFields {i : Instr} {a b c : RegIdx} (h : instrRegularFields i = some (a, b, c)) :
    encode i = encRegular i.opcode a b c := by
  cases i with
  | orth | illegal14 | illegal15 => cases h
  | _ => cases h; rfl

/-- A platter with opcode 0 to 12 decodes to an instruction with its three fields; `decode_regularFields` is the converse. -/
theorem regularFields_decode {w : Word} (h : w.toNat / 2 ^ 28 ≤ 12) :
    instrRegularFields (decode w) = some (fieldA w, fieldB w, fieldC w) := by
  rw [← decode_opcode_toNat] at h
  obtain ⟨a, b, c, habc⟩ := exists_regularFields h
  obtain ⟨rfl, rfl, rfl⟩ := decode_regularFields habc
  exact habc

/-! ## Round trips -/

theorem decode_encRegular_fields {op : BitVec 4} (a b c : RegIdx) (h : op.toNat ≤ 12) :
    instrRegularFields (decode (encRegular op a b c)) = some (a, b, c) := by
  have hop : (encRegular op a b c).toNat / 2 ^ 28 ≤ 12 := by rwa [← opField_toNat, opField_encRegular]
  simpa using regularFields_decode hop

theorem decode_encOrth (a : RegIdx) (v : Imm) : decode (encOrth a v) = .orth a v := by
  simp [decode]

theorem decode_encode (i : Instr) : decode (encode i) = i := by
  cases i with
  | orth a v => exact decode_encOrth a v
  | illegal14 | illegal15 => decide
  | _ => simp [encode, decode]

/-- Encoding keeps of a regular platter what the decoder looks at. -/
theorem encode_decode {w : Word} (h : w.toNat / 2 ^ 28 ≤ 12) : encode (decode w) = w &&& 0xF00001FF := by
  rw [encode_of_regularFields (regularFields_decode h), decode_opcode, encRegular_fields]

/-! ## Illegal words -/

/-- The two illegal rows are the opcodes above 13 (`30_encoding.md` R97). -/
theorem wellFormed_eq_false_iff (i : Instr) : i.wellFormed = false ↔ 14 ≤ i.opcode.toNat := by
  cases i <;> simp [Instr.wellFormed, Instr.opcode]

/-- The illegal opcodes are those of the words from 14 * 2^28 on (`30_encoding.md` R97). -/
theorem illegalOpcode_iff (w : Word) : 14 ≤ w.toNat / 2 ^ 28 ↔ 0xE0000000 ≤ w.toNat := by
  omega

theorem decode_wellFormed_eq_false_iff (w : Word) : (decode w).wellFormed = false ↔ 0xE0000000 ≤ w.toNat := by
  rw [wellFormed_eq_false_iff, decode_opcode_toNat, illegalOpcode_iff]

/-- An illegal instruction takes DecodeError where the finger stands (`40_execution_cycle.md` R123). -/
theorem exec_of_not_wellFormed {i : Instr} (s : State) (h : i.wellFormed = false) :
    exec i s = .next (s.earlyFault .decodeError) := by
  cases i with
  | illegal14 | illegal15 => rfl
  | _ => cases h

/-! ## The statements -/

/-- Settles O1: both formats as numbers, the round trip of every instruction, and the round trip of a regular platter through
its opcode and fields. -/
theorem decoderInvertsEncoder : Obligations.DecoderInvertsEncoder := by
  unfold Obligations.DecoderInvertsEncoder
  refine ⟨?regular, ?orthography, decode_encode, fun w hw => encode_decode hw⟩
  case regular =>
    intro op a b c hop
    exact ⟨toNat_encRegular op a b c, by rw [decode_opcode, opField_encRegular], decode_encRegular_fields a b c hop⟩
  case orthography =>
    intro a v
    exact ⟨toNat_encOrth a v, decode_encOrth a v⟩

/-- Settles O3: an illegal word is one whose opcode is above 13, and the step that fetches it takes the fault. -/
theorem illegalWordsRaiseDecodeError : Obligations.IllegalWordsRaiseDecodeError := by
  unfold Obligations.IllegalWordsRaiseDecodeError
  refine ⟨decode_wellFormed_eq_false_iff, illegalOpcode_iff, fun s w hs hf hw => ?_⟩
  have hill := (decode_wellFormed_eq_false_iff w).2 hw
  exact ⟨s.earlyFault .decodeError, (step_of_fetch hs hf).trans (exec_of_not_wellFormed s hill), by simp, by simp⟩

end Sys2Proof.Machine

/-! PROOFS. The statements of `40_execution_cycle.md`. A step of a Running machine has a next state because every instruction has
one in every state; what that state can be is read off `ExecEffect`. -/

namespace Sys2Proof.Machine

open Sys2Proof

/-! ## A next state exists -/

/-- `Execute` is total (`40_execution_cycle.md` R125): its guards choose between a result and fault entry, and both are next
states. -/
theorem exists_exec_eq_next (i : Instr) (s : State) : ∃ t, exec i s = .next t := by
  cases i with
  | cmov | add | mul | nand | halt | orth | illegal14 | illegal15 => exact ⟨_, rfl⟩
  | aidx | amend | div | inp =>
    simp only [exec, execAidx, execAmend, execDiv, execInp]
    split <;> exact ⟨_, rfl⟩
  | alloc | abandon =>
    simp only [exec, execAlloc, execAbandon]
    split
    · exact ⟨_, rfl⟩
    · split <;> exact ⟨_, rfl⟩
  | out =>
    simp only [exec, execOut]
    split
    · split <;> exact ⟨_, rfl⟩
    · exact ⟨_, rfl⟩
  | loadprog =>
    simp only [exec, execLoadprog]
    split
    · exact ⟨_, rfl⟩
    · split
      · exact ⟨_, rfl⟩
      · split <;> exact ⟨_, rfl⟩

theorem step_of_fetch_none {s : State} (hs : s.status = .running) (hf : s.fetch = none) :
    step s = .next (s.earlyFault .outOfBoundsAccess) := by
  simp [step, hs, hf]

theorem exists_step_eq_next {s : State} (hs : s.status = .running) : ∃ t, step s = .next t := by
  cases hf : s.fetch with
  | none => exact ⟨_, step_of_fetch_none hs hf⟩
  | some w =>
    rw [step_of_fetch hs hf]
    exact exists_exec_eq_next (decode w) s

/-! ## The status of the next state -/

/-- Only fault entry and HALT leave status Running (`40_execution_cycle.md` R126). -/
theorem ExecEffect.running_or_halted_or_faulted {i : Instr} {s t : State} (h : ExecEffect s i t) (hs : s.status = .running) :
    t.status = .running ∨ (i.opcode.toNat = 7 ∧ t = s.advance.setStatus .halted) ∨
      (t.status = .faulted ∧ t.diag.pc = t.pc) := by
  cases h with
  | fault k hk => exact .inr (.inr ⟨by simp, by simp⟩)
  | illegal hi => exact .inr (.inr ⟨by simp, by simp⟩)
  | halted a b c => exact .inr (.inl ⟨rfl, rfl⟩)
  | _ => exact .inl (by simpa using hs)

/-! ## The statements -/

/-- Settles O8. -/
theorem runningStepHasOneOfThreeOutcomes : Obligations.RunningStepHasOneOfThreeOutcomes := by
  unfold Obligations.RunningStepHasOneOfThreeOutcomes
  intro s hs
  obtain ⟨t, h⟩ := exists_step_eq_next hs
  refine ⟨t, h, ?_⟩
  rcases step_effect h with ⟨-, rfl⟩ | ⟨w, hf, he⟩
  · exact .inr (.inr ⟨by simp, by simp⟩)
  · rcases he.running_or_halted_or_faulted hs with hrun | ⟨hop, rfl⟩ | hfault
    · exact .inl hrun
    · rw [decode_opcode_toNat] at hop
      exact .inr (.inl ⟨by simp, ⟨w, hf, hop⟩, by simp, fun r => by simp, sameMemory_of_mem_eq (by simp), by simp [SameIo],
        by simp, by simp⟩)
    · exact .inr (.inr hfault)

/-- Settles O5: the fetch is the read of platter `pc` of array 0. -/
theorem stepRunsDecodedInstruction : Obligations.StepRunsDecodedInstruction := by
  unfold Obligations.StepRunsDecodedInstruction
  exact fun s w hs hread => step_of_fetch hs hread

/-- Settles O36. -/
theorem illegalOpcodesFaultInPlace : Obligations.IllegalOpcodesFaultInPlace := by
  unfold Obligations.IllegalOpcodesFaultInPlace
  intro s
  have hfault : FaultedWith .decodeError s.pc s (s.earlyFault .decodeError) := takeFault_faultedWith s .decodeError s.pc
  exact ⟨⟨_, exec_of_not_wellFormed s rfl, hfault⟩, ⟨_, exec_of_not_wellFormed s rfl, hfault⟩⟩

end Sys2Proof.Machine

/-! PROOFS. The statements of `41_move_and_immediate.md`. The word of a regular instruction as a number, and the frame of a write to
one register, are said for any instruction and any value. -/

namespace Sys2Proof.Machine

open Sys2Proof

/-! ## What the instructions that write one register share -/

/-- The canonical word of a regular instruction as a number (`30_encoding.md` R92, R100). -/
theorem toNat_encode_of_regularFields {i : Instr} {a b c : RegIdx} (h : instrRegularFields i = some (a, b, c)) :
    (encode i).toNat = i.opcode.toNat * 2 ^ 28 + 64 * a.toNat + 8 * b.toNat + c.toNat := by
  rw [encode_of_regularFields h, toNat_encRegular, Nat.mul_comm a.toNat, Nat.mul_comm b.toNat]

theorem writesOnly_advance (a : RegIdx) (s : State) : WritesOnly a s s.advance :=
  ⟨fun r _ => advance_reg s r, advance_pc s, sameMemory_of_mem_eq (advance_mem s), by simp [SameIo], by simp [SameControl]⟩

theorem writesOnly_advance_setReg (a : RegIdx) (v : Word) (s : State) : WritesOnly a s (s.advance.setReg a v) :=
  ⟨fun r hr => setReg_reg_other s.advance a r v hr, by simp, sameMemory_of_mem_eq (by simp), by simp [SameIo],
    by simp [SameControl]⟩

/-! ## CMOV -/

theorem condHolds_iff (x : Word) : condHolds x = true ↔ x ≠ 0 := by
  simp [condHolds]

theorem exec_cmov_of_ne_zero {s : State} {c : RegIdx} (a b : RegIdx) (h : s.reg c ≠ 0) :
    exec (.cmov a b c) s = .next (s.advance.setReg a (s.reg b)) := by
  simp only [exec, execCmov, if_pos ((condHolds_iff _).2 h)]

theorem exec_cmov_of_eq_zero {s : State} {c : RegIdx} (a b : RegIdx) (h : s.reg c = 0) :
    exec (.cmov a b c) s = .next s.advance := by
  simp only [exec, execCmov, if_neg fun hc => (condHolds_iff _).1 hc h]

/-! ## ORTH -/

theorem exec_orth (a : RegIdx) (v : Imm) (s : State) : exec (.orth a v) s = .next (s.advance.setReg a (immOperand v)) := rfl

/-- The immediate keeps its value in the wider word (`30_encoding.md` R94). -/
theorem immOperand_toNat (v : Imm) : (immOperand v).toNat = v.toNat :=
  BitVec.toNat_setWidth_of_le (by decide)

/-! ## The statements -/

/-- Settles O15, by whether the condition register is 0. -/
theorem cmovMovesWhenConditionNonzero : Obligations.CmovMovesWhenConditionNonzero := by
  unfold Obligations.CmovMovesWhenConditionNonzero
  intro a b c s
  refine ⟨by simpa [Instr.opcode] using toNat_encode_of_regularFields (i := .cmov a b c) rfl, ?_⟩
  by_cases hc : s.reg c = 0
  · exact ⟨_, exec_cmov_of_eq_zero a b hc, writesOnly_advance a s, fun hne => absurd hc hne, fun _ => advance_reg s a⟩
  · exact ⟨_, exec_cmov_of_ne_zero a b hc, writesOnly_advance_setReg a (s.reg b) s, fun _ => setReg_reg_self _ _ _,
      fun hz => absurd hz hc⟩

/-- Settles O16. -/
theorem orthLoadsZeroExtendedImmediate : Obligations.OrthLoadsZeroExtendedImmediate := by
  unfold Obligations.OrthLoadsZeroExtendedImmediate
  intro a v s
  refine ⟨?word, _, exec_orth a v s, writesOnly_advance_setReg a (immOperand v) s, ?value⟩
  case word =>
    simp only [encode, toNat_encOrth]
    omega
  case value =>
    rw [setReg_reg_self, immOperand_toNat]

end Sys2Proof.Machine

/-! PROOFS. The statements of `42_array_access.md`. A store is described platter by platter from the array it changes; when the
arbiter answers `bad` is said once for its read and once for its write, under the two cases in which the rules fault. -/

namespace Sys2Proof.Machine

open Sys2Proof

/-! ## What a store leaves -/

/-- No length changes, not even that of the array stored into (`20_memory.md` R64). -/
theorem write_lenOf {m m' : Memory} {id off v : Word} (hw : m.write id off v = some m') (j : Word) :
    m'.lenOf j = m.lenOf j := by
  obtain ⟨⟨p, hp, hp'⟩, hother⟩ := write_arrayAt hw
  by_cases hj : j = id
  · simp [Memory.lenOf, hj, hp, hp']
  · simp [Memory.lenOf, hother j hj]

/-- Every platter but the one stored to is as before, in the same array by its offset and in another by its identifier
(`20_memory.md` R64). -/
theorem write_read_other {m m' : Memory} {id off v j o : Word} (hw : m.write id off v = some m')
    (hne : ¬ (j = id ∧ o = off)) : m'.read j o = m.read j o := by
  obtain ⟨⟨p, hp, hp'⟩, hother⟩ := write_arrayAt hw
  by_cases hj : j = id
  · have hoff : o ≠ off := fun ho => hne ⟨hj, ho⟩
    simp [Memory.read, hj, hp, hp', set_get_other p _ _ v (toNat_ne hoff)]
  · exact (read_eq_of_arrayAt_eq (hother j hj)).2 o

/-! ## When the arbiter answers `bad` -/

/-- A read below the length is answered (`20_memory.md` R63). -/
theorem read_of_lt {m : Memory} {id off n : Word} (hlen : m.lenOf id = some n) (hlt : off < n) :
    ∃ v, m.read id off = some v := by
  obtain ⟨p, hp, rfl⟩ := (lenOf_eq_some _ _ _).1 hlen
  exact ⟨_, (read_eq_some _ _ _ _).2 ⟨p, hp, hlt, rfl⟩⟩

/-- The companion of `read_eq_none` for a write. -/
theorem write_eq_none {m : Memory} {id off : Word} (v : Word) (h : ∀ p, m.arrayAt id = some p → p.len ≤ off) :
    m.write id off v = none := by
  rcases write_cases m id off v with ⟨hn, -⟩ | ⟨p, hp, hlt, -⟩
  · exact hn
  · exact absurd hlt (BitVec.not_lt.2 (h p hp))

/-- The two cases of OutOfBoundsAccess, as what the arbiter looks at: no array under the identifier, or an array that ends at or
below the offset (`20_memory.md` R62). -/
theorem len_le_of_outOfBounds {m : Memory} {id off : Word}
    (h : m.allocated id = false ∨ ∃ n, m.lenOf id = some n ∧ n ≤ off) (p : PlatterArray) (hp : m.arrayAt id = some p) :
    p.len ≤ off := by
  rcases h with hfree | ⟨n, hlen, hle⟩
  · rw [(allocated_eq_false_iff _ _).1 hfree] at hp
    cases hp
  · simp only [Memory.lenOf, hp, Option.map_some, Option.some.injEq] at hlen
    rwa [hlen]

/-! ## The instructions -/

theorem exec_aidx_of_read {s : State} {b c : RegIdx} {v : Word} (a : RegIdx)
    (hr : s.mem.read (s.reg b) (s.reg c) = some v) : exec (.aidx a b c) s = .next (s.advance.setReg a v) := by
  simp only [exec, execAidx, hr]

theorem exec_aidx_of_read_none {s : State} {b c : RegIdx} (a : RegIdx)
    (hr : s.mem.read (s.reg b) (s.reg c) = none) :
    exec (.aidx a b c) s = .next (s.dispatchFault .outOfBoundsAccess) := by
  simp only [exec, execAidx, hr]

/-- The other branch of `exec_amend_of_write`. -/
theorem exec_amend_of_write_none {s : State} {a b c : RegIdx}
    (hw : s.mem.write (s.reg a) (s.reg b) (s.reg c) = none) :
    exec (.amend a b c) s = .next (s.dispatchFault .outOfBoundsAccess) := by
  simp only [exec, execAmend, hw]

/-! ## The statements -/

/-- Settles O17, by the arbiter's answer to the read. -/
theorem aidxLoadsPlatterOrFaults : Obligations.AidxLoadsPlatterOrFaults := by
  unfold Obligations.AidxLoadsPlatterOrFaults
  intro a b c s
  refine ⟨by simpa [Instr.opcode] using toNat_encode_of_regularFields (i := .aidx a b c) rfl, fun n hlen hlt => ?loads,
    fun hbad => ?faults⟩
  case loads =>
    obtain ⟨v, hr⟩ := read_of_lt hlen hlt
    exact ⟨_, v, exec_aidx_of_read a hr, writesOnly_advance_setReg a v s, hr, setReg_reg_self _ _ _⟩
  case faults =>
    have hr := (read_eq_none _ _ _).2 (len_le_of_outOfBounds hbad)
    exact ⟨_, exec_aidx_of_read_none a hr, (dispatchFault_faultedWith _ _).faultsInDispatch⟩

/-- Settles O18, by the arbiter's answer to the write. -/
theorem amendStoresPlatterOrFaults : Obligations.AmendStoresPlatterOrFaults := by
  unfold Obligations.AmendStoresPlatterOrFaults
  intro a b c s
  refine ⟨by simpa [Instr.opcode] using toNat_encode_of_regularFields (i := .amend a b c) rfl, fun n hlen hlt => ?stores,
    fun hbad => ?faults⟩
  case stores =>
    obtain ⟨m, hw, hself⟩ := write_of_lt (s.reg c) hlen hlt
    exact ⟨_, exec_amend_of_write hw, hself, fun _ _ hne => write_read_other hw hne, write_lenOf hw, fun r => by simp,
      by simp, by simp [SameIo], by simp [SameControl]⟩
  case faults =>
    have hw := write_eq_none (s.reg c) (len_le_of_outOfBounds hbad)
    exact ⟨_, exec_amend_of_write_none hw, (dispatchFault_faultedWith _ _).faultsInDispatch⟩

end Sys2Proof.Machine

/-! PROOFS. The statements of `43_arithmetic_logic.md`. What each result is as a number, or bit by bit, is said of the arithmetic
alone; the word and the frame are those of any instruction that writes one register. -/

namespace Sys2Proof.Machine

open Sys2Proof

/-! ## The results -/

theorem aluAdd_toNat (x y : Word) : (aluAdd x y).toNat = (x.toNat + y.toNat) % 2 ^ 32 :=
  BitVec.toNat_ofNat _ _

theorem aluMul_toNat (x y : Word) : (aluMul x y).toNat = x.toNat * y.toNat % 2 ^ 32 :=
  BitVec.toNat_ofNat _ _

/-- The quotient is at most the dividend, so it fits a register (`43_arithmetic_logic.md` R162). -/
theorem aluDiv_toNat (x y : Word) : (aluDiv x y).toNat = x.toNat / y.toNat :=
  (BitVec.toNat_ofNat _ _).trans (Nat.mod_eq_of_lt ((Nat.div_le_self _ _).trans_lt x.isLt))

theorem aluNand_getLsbD (x y : Word) {k : Nat} (hk : k < 32) :
    (aluNand x y).getLsbD k = !(x.getLsbD k && y.getLsbD k) := by
  simp [aluNand, hk]

/-- NAND of a value with itself is its complement (`43_arithmetic_logic.md` R163). -/
theorem aluNand_self_toNat (x : Word) : (aluNand x x).toNat = 2 ^ 32 - 1 - x.toNat := by
  rw [aluNand, BitVec.and_self, BitVec.toNat_not]

/-! ## The instructions -/

theorem exec_add (a b c : RegIdx) (s : State) :
    exec (.add a b c) s = .next (s.advance.setReg a (aluAdd (s.reg b) (s.reg c))) := rfl

theorem exec_mul (a b c : RegIdx) (s : State) :
    exec (.mul a b c) s = .next (s.advance.setReg a (aluMul (s.reg b) (s.reg c))) := rfl

theorem exec_div_of_ne_zero {s : State} {c : RegIdx} (a b : RegIdx) (h : s.reg c ≠ 0) :
    exec (.div a b c) s = .next (s.advance.setReg a (aluDiv (s.reg b) (s.reg c))) := by
  simp only [exec, execDiv, if_neg h]

theorem exec_div_of_eq_zero {s : State} {c : RegIdx} (a b : RegIdx) (h : s.reg c = 0) :
    exec (.div a b c) s = .next (s.dispatchFault .divisionByZero) := by
  simp only [exec, execDiv, if_pos h]

theorem exec_nand (a b c : RegIdx) (s : State) :
    exec (.nand a b c) s = .next (s.advance.setReg a (aluNand (s.reg b) (s.reg c))) := rfl

/-! ## The statements -/

/-- Settles O23: the two bounds on `q` say that `q` is the floor quotient. -/
theorem divQuotientIsUnique : Obligations.DivQuotientIsUnique := by
  unfold Obligations.DivQuotientIsUnique
  intro a b c s hc
  refine ⟨_, exec_div_of_ne_zero a b hc, ?_⟩
  rw [setReg_reg_self, aluDiv_toNat]
  have hpos : 0 < (s.reg c).toNat := BitVec.toNat_pos_of_ne_zero hc
  refine ⟨Nat.div_le_self _ _, fun q => ?bounds⟩
  case bounds =>
    calc q * (s.reg c).toNat ≤ (s.reg b).toNat ∧ (s.reg b).toNat < (q + 1) * (s.reg c).toNat
      _ ↔ (s.reg b).toNat / (s.reg c).toNat = q := by
        rw [← Nat.le_div_iff_mul_le hpos, ← Nat.div_lt_iff_lt_mul hpos]
        omega
      _ ↔ q = (s.reg b).toNat / (s.reg c).toNat := eq_comm

/-- Settles O20. -/
theorem addIsSumModulo : Obligations.AddIsSumModulo := by
  unfold Obligations.AddIsSumModulo
  intro a b c s
  refine ⟨by simpa [Instr.opcode] using toNat_encode_of_regularFields (i := .add a b c) rfl, _, exec_add a b c s,
    writesOnly_advance_setReg a _ s, ?sum⟩
  case sum => rw [setReg_reg_self, aluAdd_toNat]

/-- Settles O21. -/
theorem mulIsProductModulo : Obligations.MulIsProductModulo := by
  unfold Obligations.MulIsProductModulo
  intro a b c s
  refine ⟨by simpa [Instr.opcode] using toNat_encode_of_regularFields (i := .mul a b c) rfl, _, exec_mul a b c s,
    writesOnly_advance_setReg a _ s, ?product⟩
  case product => rw [setReg_reg_self, aluMul_toNat]

/-- Settles O22, by whether the divisor is 0. -/
theorem divIsFloorQuotientOrFaults : Obligations.DivIsFloorQuotientOrFaults := by
  unfold Obligations.DivIsFloorQuotientOrFaults
  intro a b c s
  refine ⟨by simpa [Instr.opcode] using toNat_encode_of_regularFields (i := .div a b c) rfl, fun hc => ?divides,
    fun hc => ?faults⟩
  case divides =>
    exact ⟨_, exec_div_of_ne_zero a b hc, writesOnly_advance_setReg a _ s, by rw [setReg_reg_self, aluDiv_toNat]⟩
  case faults =>
    exact ⟨_, exec_div_of_eq_zero a b hc, (dispatchFault_faultedWith _ _).faultsInDispatch⟩

/-- Settles O24, bit by bit; with both sources one register, by NAND of a value with itself. -/
theorem nandIsComplementOfAnd : Obligations.NandIsComplementOfAnd := by
  unfold Obligations.NandIsComplementOfAnd
  intro a b c s
  refine ⟨by simpa [Instr.opcode] using toNat_encode_of_regularFields (i := .nand a b c) rfl, _, exec_nand a b c s,
    writesOnly_advance_setReg a _ s, fun k hk => ?bit, fun hbc => ?complement⟩
  case bit => rw [setReg_reg_self, aluNand_getLsbD _ _ hk]
  case complement => rw [setReg_reg_self, ← hbc, aluNand_self_toNat]

end Sys2Proof.Machine

/-! PROOFS. The statements of `44_heap_management.md`. What ALLOC and ABANDON do to the identifiers in use is said of the heap alone,
then how the lowest free identifier moves; what a completed ALLOC or ABANDON has done carries that over to sequences of the two. -/

namespace Sys2Proof.Machine

open Sys2Proof

/-! ## The identifiers in use -/

theorem allocated_eq_of_arrayAt_eq {m n : Memory} {id : Word} (h : n.arrayAt id = m.arrayAt id) :
    n.allocated id = m.allocated id := by
  simp [Memory.allocated, h]

@[simp] theorem alloc_allocated_self (m : Memory) (id cap : Word) : (m.alloc id cap).allocated id = true := by
  simp [Memory.allocated]

theorem alloc_allocated_other {m : Memory} {id cap j : Word} (h : j ≠ id) :
    (m.alloc id cap).allocated j = m.allocated j :=
  allocated_eq_of_arrayAt_eq (alloc_arrayAt_other _ _ _ _ h)

@[simp] theorem free_allocated_self (m : Memory) (id : Word) : (m.free id).allocated id = false := by
  simp [Memory.allocated]

theorem free_allocated_other {m : Memory} {id j : Word} (h : j ≠ id) : (m.free id).allocated j = m.allocated j :=
  allocated_eq_of_arrayAt_eq (free_arrayAt_other _ _ _ h)

/-- A released identifier answers `bad` at every offset (`20_memory.md` R68). -/
theorem free_read_self (m : Memory) (id off : Word) : (m.free id).read id off = none :=
  (read_eq_none _ _ _).2 fun p hp => by simp at hp

/-! ## The lowest free identifier -/

/-- `LowestFreeId()` by what its answer says: not 0, free, and nothing free from 1 up to it (`20_memory.md` R66). -/
theorem lowestFreeId_eq_some_iff {m : Memory} {id : Word} :
    m.lowestFreeId = some id ↔
      id ≠ 0 ∧ m.allocated id = false ∧ ∀ j : Word, j ≠ 0 → j < id → m.allocated j = true := by
  rw [allocated_eq_false_iff]
  exact ⟨lowestFreeId_some, fun ⟨h0, hfree, hbelow⟩ => lowestFreeId_eq h0 hfree hbelow⟩

theorem lowestFreeId_le {m : Memory} {id j : Word} (hid : m.lowestFreeId = some id) (h0 : j ≠ 0)
    (hfree : m.allocated j = false) : id ≤ j := by
  obtain ⟨-, -, hbelow⟩ := lowestFreeId_eq_some_iff.1 hid
  refine BitVec.not_lt.1 fun hlt => ?_
  rw [hbelow j h0 hlt] at hfree
  cases hfree

/-- With exactly 0 to `k` in use the lowest free identifier is the next one (`44_heap_management.md` R173 (a)). -/
theorem lowestFreeId_of_initialSegment {m : Memory} {k : Word} (hk : k ≠ 0xFFFFFFFF)
    (h : ∀ j : Word, m.allocated j = true ↔ j ≤ k) : m.lowestFreeId = some (k + 1) := by
  refine lowestFreeId_eq_some_iff.2 ⟨by bv_omega, ?free, fun j _ hlt => (h j).2 (by bv_omega)⟩
  case free =>
    rw [Bool.eq_false_iff, Ne, h]
    bv_omega

/-- A released identifier with nothing free below it is the next one found. -/
theorem lowestFreeId_free_self {m : Memory} {j : Word} (h0 : j ≠ 0)
    (hbelow : ∀ i : Word, i ≠ 0 → i < j → m.allocated i = true) : (m.free j).lowestFreeId = some j :=
  lowestFreeId_eq_some_iff.2 ⟨h0, free_allocated_self m j, fun i hi hlt => by
    rw [free_allocated_other (BitVec.ne_of_lt hlt), hbelow i hi hlt]⟩

/-- A release above the lowest free identifier leaves it the lowest. -/
theorem lowestFreeId_free_of_lt {m : Memory} {i j : Word} (hi : m.lowestFreeId = some i) (hlt : i < j) :
    (m.free j).lowestFreeId = some i := by
  obtain ⟨h0, hfree, hbelow⟩ := lowestFreeId_eq_some_iff.1 hi
  refine lowestFreeId_eq_some_iff.2 ⟨h0, ?_, fun l hl hli => ?_⟩
  · rwa [free_allocated_other (BitVec.ne_of_lt hlt)]
  · rw [free_allocated_other (BitVec.ne_of_lt (BitVec.lt_trans hli hlt)), hbelow l hl hli]

/-- After a release of `j` the smaller of `j` and the identifier that was lowest is found, `j` if there was none
(`44_heap_management.md` R173 (b)). -/
theorem lowestFreeId_free {m : Memory} {j : Word} (h0 : j ≠ 0) (ha : m.allocated j = true) :
    (∀ i, m.lowestFreeId = some i → (m.free j).lowestFreeId = some (if j < i then j else i)) ∧
      (m.lowestFreeId = none → (m.free j).lowestFreeId = some j) := by
  refine ⟨fun i hi => ?some, fun hnone => lowestFreeId_free_self h0 fun i hi _ => lowestFreeId_none hnone i hi⟩
  case some =>
    obtain ⟨-, hfree, hbelow⟩ := lowestFreeId_eq_some_iff.1 hi
    split
    next hlt => exact lowestFreeId_free_self h0 fun l hl hlj => hbelow l hl (BitVec.lt_trans hlj hlt)
    next hge =>
      have hne : i ≠ j := by
        rintro rfl
        rw [ha] at hfree
        cases hfree
      exact lowestFreeId_free_of_lt hi (BitVec.lt_of_le_ne (BitVec.not_lt.1 hge) hne)

/-- After the lowest free identifier is taken, the next one found is the least that was free above it
(`44_heap_management.md` R173 (c)). -/
theorem lowestFreeId_alloc {m : Memory} {i i' cap : Word} (hi : m.lowestFreeId = some i)
    (hi' : (m.alloc i cap).lowestFreeId = some i') :
    i < i' ∧ m.allocated i' = false ∧ ∀ j : Word, i < j → j < i' → m.allocated j = true := by
  obtain ⟨h0, hfree, hbelow⟩ := lowestFreeId_eq_some_iff.1 hi'
  have hne : i' ≠ i := by
    rintro rfl
    simp at hfree
  rw [alloc_allocated_other hne] at hfree
  refine ⟨BitVec.lt_of_le_ne (lowestFreeId_le hi h0 hfree) hne.symm, hfree, fun j hij hji' => ?between⟩
  case between =>
    have hj := hbelow j (by bv_omega) hji'
    rwa [alloc_allocated_other (BitVec.ne_of_lt hij).symm] at hj

/-! ## The instructions -/

theorem exec_abandon_of_allocated {s : State} {c : RegIdx} (a b : RegIdx) (h0 : s.reg c ≠ 0)
    (ha : s.mem.allocated (s.reg c) = true) :
    exec (.abandon a b c) s = .next (s.advance.setMem (s.mem.free (s.reg c))) := by
  simp only [exec, execAbandon, if_neg h0, if_pos ha]

/-- ABANDON of identifier 0, or of one that is not allocated (`44_heap_management.md` R171). -/
theorem exec_abandon_of_bad {s : State} {c : RegIdx} (a b : RegIdx)
    (h : s.reg c = 0 ∨ s.mem.allocated (s.reg c) = false) :
    exec (.abandon a b c) s = .next (s.dispatchFault .outOfBoundsAccess) := by
  rcases h with h0 | hfree
  · simp only [exec, execAbandon, if_pos h0]
  · simp only [exec, execAbandon, hfree, Bool.false_eq_true, if_false, ite_self]

/-- An ALLOC that leaves the machine Running has taken the lowest free identifier and put it in `x[B]`. -/
theorem exec_alloc_running {s t : State} {a b c : RegIdx} (h : exec (.alloc a b c) s = .next t)
    (ht : t.status = .running) :
    s.mem.lowestFreeId = some (t.reg b) ∧ t.mem = s.mem.alloc (t.reg b) (s.reg c) := by
  cases exec_effect h with
  | fault k hk => simp at ht
  | illegal hi => simp at ht
  | written r v hr hop => simp [Instr.opcode] at hop
  | allocated _ _ _ id hid hfits => simp [hid]

/-- An ABANDON that leaves the machine Running has released array `x[C]`, which was allocated. -/
theorem exec_abandon_running {s t : State} {a b c : RegIdx} (h : exec (.abandon a b c) s = .next t)
    (ht : t.status = .running) :
    s.reg c ≠ 0 ∧ s.mem.allocated (s.reg c) = true ∧ t.mem = s.mem.free (s.reg c) := by
  cases exec_effect h with
  | fault k hk => simp at ht
  | illegal hi => simp at ht
  | written r v hr hop => cases hr
  | abandoned _ _ _ h0 ha => exact ⟨h0, ha, by simp⟩

/-! ## The statements -/

/-- Settles O26, by whether `x[C]` names an array that may be released. -/
theorem abandonReleasesArrayOrFaults : Obligations.AbandonReleasesArrayOrFaults := by
  unfold Obligations.AbandonReleasesArrayOrFaults
  intro a b c s
  refine ⟨by simpa [Instr.opcode] using toNat_encode_of_regularFields (i := .abandon 0 0 c) rfl, fun h0 ha => ?releases,
    fun hbad => ?faults⟩
  case releases =>
    exact ⟨_, exec_abandon_of_allocated a b h0 ha, by simp, fun off => free_read_self _ _ off,
      fun j hj => sameArray_of_arrayAt_eq (free_arrayAt_other _ _ _ hj), fun r => by simp, by simp, by simp [SameIo],
      by simp [SameControl]⟩
  case faults =>
    exact ⟨_, exec_abandon_of_bad a b hbad, (dispatchFault_faultedWith _ _).faultsInDispatch⟩

/-- Settles O27: each completed ALLOC returns the lowest free identifier of the heap it finds, and how that moves is said by
`lowestFreeId_of_initialSegment`, `lowestFreeId_free` and `lowestFreeId_alloc`. -/
theorem allocAbandonSequencesReturnLowestIdentifiers : Obligations.AllocAbandonSequencesReturnLowestIdentifiers := by
  unfold Obligations.AllocAbandonSequencesReturnLowestIdentifiers
  refine ⟨?initialSegment, ?abandonThenAlloc, ?allocTwice⟩
  case initialSegment =>
    intro a b c s t k _ hk hsegment h ht
    obtain ⟨hid, -⟩ := exec_alloc_running h ht
    exact Option.some.inj (hid.symm.trans (lowestFreeId_of_initialSegment hk hsegment))
  case abandonThenAlloc =>
    intro a b c a' b' c' s t u _ h ht h' hu
    obtain ⟨h0, ha, hmem⟩ := exec_abandon_running h ht
    obtain ⟨hid, -⟩ := exec_alloc_running h' hu
    rw [hmem] at hid
    obtain ⟨hsome, hnone⟩ := lowestFreeId_free h0 ha
    exact ⟨fun i hi => Option.some.inj (hid.symm.trans (hsome i hi)),
      fun hn => Option.some.inj (hid.symm.trans (hnone hn))⟩
  case allocTwice =>
    intro a b c a' b' c' s t u _ h ht h' hu
    obtain ⟨hid, hmem⟩ := exec_alloc_running h ht
    obtain ⟨hid', -⟩ := exec_alloc_running h' hu
    rw [hmem] at hid'
    obtain ⟨h0, -, -⟩ := lowestFreeId_eq_some_iff.1 hid
    exact ⟨h0, lowestFreeId_alloc hid hid'⟩

end Sys2Proof.Machine

/-! PROOFS. The statements of `45_io.md`. What the boundary answers is said of the source and of `IoWrite` alone, then what OUT and
IN do with each answer. For runs, a source is cut into the answers that will be read and the source behind them: one step reads at
most one of those answers and nothing behind them. -/

namespace Sys2Proof.Machine

open Sys2Proof

/-! ## The output boundary -/

theorem outputInRange_iff (x : Word) : outputInRange x = true ↔ x.toNat ≤ 255 := by
  simp [outputInRange]

/-- The low byte of a word that is a byte's value has that value (`45_io.md` R180). -/
theorem lowByte_toNat {x : Word} (h : x.toNat ≤ 255) : (x.extractLsb' 0 8).toNat = x.toNat := by
  simp only [BitVec.extractLsb'_toNat, Nat.shiftRight_zero]
  omega

theorem ioWrite_of_accepted {s : State} (b : Byte) (h : s.outAnswers.head? ≠ some .failed) :
    s.ioWrite b = some { s with trace := s.trace ++ [b], outAnswers := s.outAnswers.tail } := by
  rcases ioWrite_cases s b with ⟨hfailed, -⟩ | ⟨-, hw⟩
  · exact absurd hfailed h
  · exact hw

theorem ioWrite_of_failed {s : State} (b : Byte) (h : s.outAnswers.head? = some .failed) : s.ioWrite b = none := by
  rcases ioWrite_cases s b with ⟨-, hw⟩ | ⟨haccepted, -⟩
  · exact hw
  · exact absurd h haccepted

/-! ## The input boundary -/

/-- A byte from the boundary keeps its value in the wider register (`45_io.md` R181). -/
theorem byteOperand_toNat (b : Byte) : (byteOperand b).toNat = b.toNat :=
  BitVec.toNat_setWidth_of_le (by decide)

theorem take_of_byte {src : InputSource} {e : Byte} {rest : List InputAnswer} (h : src.answers = .byte e :: rest) :
    src.take = .byte e { src with answers := rest } := by
  simp only [InputSource.take, h]

theorem take_of_endless {src : InputSource} {i k : Nat} (h : src.answers = []) (ht : src.tail = .endless i k) :
    src.take = .byte (Config.endlessInput i k) { src with tail := .endless i (k + 1) } := by
  simp only [InputSource.take, h, ht]

/-- The end of the input is answered from the list, or by a source that is exhausted (`45_io.md` R183). -/
theorem take_of_end {src : InputSource}
    (h : src.answers.head? = some .endOfInput ∨ (src.answers = [] ∧ src.tail = .exhausted)) :
    src.take = .endOfInput { src with answers := src.answers.tail } := by
  obtain ⟨answers, tail⟩ := src
  rcases h with h | ⟨h, ht⟩
  · obtain ⟨rest, rfl⟩ := List.head?_eq_some_iff.1 h
    rfl
  · subst h ht
    rfl

theorem take_of_failed {src : InputSource} (h : src.answers.head? = some .failed) : src.take = .failed := by
  obtain ⟨rest, h⟩ := List.head?_eq_some_iff.1 h
  simp only [InputSource.take, h]

theorem take_of_silent {src : InputSource} (h : src.answers = []) (ht : src.tail = .silent) : src.take = .waiting := by
  simp only [InputSource.take, h, ht]

/-! ## OUT -/

section
variable {s : State} {c : RegIdx} (a b : RegIdx)

theorem exec_out_of_accepted (hc : (s.reg c).toNat ≤ 255) (h : s.outAnswers.head? ≠ some .failed) :
    exec (.out a b c) s = .next { s.advance with
      trace := s.trace ++ [(s.reg c).extractLsb' 0 8], outAnswers := s.outAnswers.tail } := by
  have hw := ioWrite_of_accepted (s := s.advance) ((s.reg c).extractLsb' 0 8) h
  simp only [exec, execOut, if_pos ((outputInRange_iff _).2 hc), hw, advance_trace, advance_outAnswers]

theorem exec_out_of_failed (hc : (s.reg c).toNat ≤ 255) (h : s.outAnswers.head? = some .failed) :
    exec (.out a b c) s = .next (s.dispatchFault .ioError) := by
  have hw := ioWrite_of_failed (s := s.advance) ((s.reg c).extractLsb' 0 8) h
  simp only [exec, execOut, if_pos ((outputInRange_iff _).2 hc), hw]

/-- The range check comes before the boundary is asked (`60_exceptions.md` R209). -/
theorem exec_out_of_gt (hc : 255 < (s.reg c).toNat) :
    exec (.out a b c) s = .next (s.dispatchFault .undefinedBehavior) := by
  simp only [exec, execOut, if_neg fun hr => hc.not_ge ((outputInRange_iff _).1 hr)]

end

/-! ## IN -/

section
variable {s : State} (a b c : RegIdx)

theorem exec_inp_of_byte {e : Byte} {rest : InputSource} (h : s.input.take = .byte e rest) :
    exec (.inp a b c) s = .next ((s.advance.setInput rest).setReg c (byteOperand e)) := by
  simp only [exec, execInp, h]

theorem exec_inp_of_end {rest : InputSource} (h : s.input.take = .endOfInput rest) :
    exec (.inp a b c) s = .next ((s.advance.setInput rest).setReg c endOfInputValue) := by
  simp only [exec, execInp, h]

theorem exec_inp_of_failed (h : s.input.take = .failed) :
    exec (.inp a b c) s = .next (s.dispatchFault .ioError) := by
  simp only [exec, execInp, h]

theorem exec_inp_of_waiting (h : s.input.take = .waiting) : exec (.inp a b c) s = .next s := by
  simp only [exec, execInp, h]

end

/-- What an IN that completes changes: register `c`, the finger and the source, whatever value it delivers. -/
theorem delivered_frame (s : State) (rest : InputSource) (c : RegIdx) (v : Word) {t : State}
    (ht : t = (s.advance.setInput rest).setReg c v) :
    t.input = rest ∧ RegsSameExcept c s t ∧ t.pc = s.pc + 1 ∧ SameMemory s t ∧ t.trace = s.trace ∧
      t.outAnswers = s.outAnswers ∧ SameControl s t := by
  subst ht
  exact ⟨by simp, fun r hr => setReg_reg_other (s.advance.setInput rest) c r v hr, by simp, sameMemory_of_mem_eq (by simp),
    by simp, by simp, by simp [SameControl]⟩

/-! ## The answers ahead and the source behind them -/

/-- The source whose next answers are `ahead` and that goes on as `src` after them. -/
def InputSource.behind (src : InputSource) (ahead : List InputAnswer) : InputSource :=
  { src with answers := ahead ++ src.answers }

/-- From `s` with `x` and `ahead` to come, `f` reads `x` or no answer, and leads to the same next state whatever source is behind
them. -/
def ReadsAtMostOne (f : State → Result) (s : State) (x : InputAnswer) (ahead : List InputAnswer) : Prop :=
  ∃ (t : State) (left : List InputAnswer), (left = ahead ∨ left = x :: ahead) ∧
    ∀ src : InputSource, f (s.setInput (src.behind (x :: ahead))) = .next (t.setInput (src.behind left))

section
variable (s : State) (x : InputAnswer) (ahead : List InputAnswer)

/-- IN reads the answer, or faults and leaves it where it is (log entry 11). -/
theorem exec_inp_readsAtMostOne (a b c : RegIdx) : ReadsAtMostOne (exec (.inp a b c)) s x ahead := by
  cases x with
  | byte e =>
    exact ⟨s.advance.setReg c (byteOperand e), _, .inl rfl, fun src => exec_inp_of_byte a b c (take_of_byte rfl)⟩
  | endOfInput =>
    exact ⟨s.advance.setReg c endOfInputValue, _, .inl rfl, fun src => exec_inp_of_end a b c (take_of_end (.inl rfl))⟩
  | failed =>
    refine ⟨s.dispatchFault .ioError, _, .inr rfl, fun src => ?_⟩
    rw [exec_inp_of_failed a b c (take_of_failed rfl)]
    exact congrArg _ (takeFault_setInput s _ .ioError (s.pc + 1))

/-- An instruction other than IN reads no answer (`exec_setInput`). -/
theorem exec_readsAtMostOne_of_ne {i : Instr} (hi : i.opcode.toNat ≠ 11) : ReadsAtMostOne (exec i) s x ahead := by
  obtain ⟨t, h⟩ := exists_exec_eq_next i s
  exact ⟨t, _, .inr rfl, fun src => exec_setInput _ hi h⟩

theorem exec_readsAtMostOne (i : Instr) : ReadsAtMostOne (exec i) s x ahead := by
  cases i with
  | inp a b c => exact exec_inp_readsAtMostOne s x ahead a b c
  | _ => exact exec_readsAtMostOne_of_ne s x ahead (by simp [Instr.opcode])

/-- Nor does a fetch read an answer: it looks at the heap. -/
theorem step_readsAtMostOne (hs : s.status = .running) : ReadsAtMostOne step s x ahead := by
  have hrun : ∀ src : InputSource, (s.setInput src).status = .running := fun _ => hs
  have hfetch : ∀ src : InputSource, (s.setInput src).fetch = s.fetch := fun _ => rfl
  cases hf : s.fetch with
  | none =>
    refine ⟨s.earlyFault .outOfBoundsAccess, _, .inr rfl, fun src => ?_⟩
    rw [step_of_fetch_none (hrun _) ((hfetch _).trans hf)]
    exact congrArg _ (takeFault_setInput s _ .outOfBoundsAccess s.pc)
  | some w =>
    obtain ⟨t, left, hleft, hexec⟩ := exec_readsAtMostOne s x ahead (decode w)
    exact ⟨t, left, hleft, fun src => (step_of_fetch (hrun _) ((hfetch _).trans hf)).trans (hexec src)⟩

end

/-! ## Runs -/

theorem runSteps_succ_of_next {s t : State} (n : Nat) (h : step s = .next t) : runSteps (n + 1) s = runSteps n t := by
  simp only [runSteps, h]

theorem runSteps_succ_of_not_running {s : State} (n : Nat) (h : s.status ≠ .running) : runSteps (n + 1) s = none := by
  rw [runSteps]
  split
  next t hstep => exact absurd (step_cases hstep).1 h
  next => rfl

/-! ## The statements -/

/-- Settles O49, by induction on the number of steps: each step uses up at most one of the answers ahead. -/
theorem runDependsOnlyOnAnswersRead : Obligations.RunDependsOnlyOnAnswersRead := by
  unfold Obligations.RunDependsOnlyOnAnswersRead
  intro n ahead src src' s hn
  change (runSteps n (s.setInput (src.behind ahead))).map (·.setInput src) =
    (runSteps n (s.setInput (src'.behind ahead))).map (·.setInput src)
  induction n generalizing ahead s with
  | zero => rfl
  | succ n ih =>
    by_cases hs : s.status = .running
    · cases ahead with
      | nil => simp at hn
      | cons x ahead =>
        obtain ⟨t, left, hleft, hstep⟩ := step_readsAtMostOne s x ahead hs
        have hlen : n ≤ left.length := by
          rcases hleft with rfl | rfl
          · exact Nat.le_of_succ_le_succ hn
          · exact Nat.le_of_succ_le hn
        rw [runSteps_succ_of_next n (hstep src), runSteps_succ_of_next n (hstep src')]
        exact ih left t hlen
    · have hnone : ∀ src : InputSource, runSteps (n + 1) (s.setInput src) = none :=
        fun _ => runSteps_succ_of_not_running n hs
      rw [hnone, hnone]

/-- Settles O29, by the range check and then the boundary's answer. -/
theorem outEmitsByteOrFaults : Obligations.OutEmitsByteOrFaults := by
  unfold Obligations.OutEmitsByteOrFaults
  intro a b c s
  refine ⟨fun hc hacc => ?emits, fun hc => ?outOfRange, fun hc hfailed => ?boundaryFails⟩
  case emits =>
    exact ⟨_, exec_out_of_accepted a b hc hacc, ⟨_, lowByte_toNat hc, rfl⟩, rfl, rfl, fun r => rfl, rfl,
      sameMemory_of_mem_eq rfl, by simp [SameControl]⟩
  case outOfRange => exact ⟨_, exec_out_of_gt a b hc, dispatchFault_faultedWith _ _⟩
  case boundaryFails => exact ⟨_, exec_out_of_failed a b hc hfailed, dispatchFault_faultedWith _ _⟩

/-- Settles O30, by the boundary's answer. -/
theorem inDeliversByteOrEndOfInput : Obligations.InDeliversByteOrEndOfInput := by
  unfold Obligations.InDeliversByteOrEndOfInput
  intro a b c s
  refine ⟨fun e rest h => ?byte, fun i k h ht => ?endless, fun h => ?endOfInput, fun h => ?failed, fun h ht => ?waiting⟩
  case byte =>
    exact ⟨_, exec_inp_of_byte a b c (take_of_byte h), by rw [setReg_reg_self, byteOperand_toNat],
      delivered_frame s _ c _ rfl⟩
  case endless =>
    exact ⟨_, exec_inp_of_byte a b c (take_of_endless h ht), by rw [setReg_reg_self, byteOperand_toNat],
      delivered_frame s _ c _ rfl⟩
  case endOfInput =>
    exact ⟨_, exec_inp_of_end a b c (take_of_end h), by rw [setReg_reg_self]; rfl, delivered_frame s _ c _ rfl⟩
  case failed => exact ⟨_, exec_inp_of_failed a b c (take_of_failed h), dispatchFault_faultedWith _ _⟩
  case waiting => exact exec_inp_of_waiting a b c (take_of_silent h ht)

end Sys2Proof.Machine

/-! PROOFS. The statements of `46_control.md`. When the copy to array 0 is made is said of the heap alone, then each branch of
LOADPROG; the conditional jump is read off the statement on CMOV and the branch of LOADPROG that jumps. -/

namespace Sys2Proof.Machine

open Sys2Proof

/-! ## The copy to array 0 -/

/-- The copy of an allocated array is made (`20_memory.md` R69); what it leaves is `copyTo0_arrayAt`. -/
theorem copyTo0_of_lenOf {m : Memory} {id n : Word} (h : m.lenOf id = some n) : ∃ m', m.copyTo0 id = some m' := by
  obtain ⟨p, hp, -⟩ := (lenOf_eq_some _ _ _).1 h
  simp [Memory.copyTo0, hp]

theorem copyTo0_of_not_allocated {m : Memory} {id : Word} (h : m.allocated id = false) : m.copyTo0 id = none := by
  simp only [Memory.copyTo0, (allocated_eq_false_iff m id).1 h]

/-! ## The instructions and the step -/

theorem exec_halt (a b c : RegIdx) (s : State) : exec (.halt a b c) s = .next (s.advance.setStatus .halted) := rfl

/-- In a terminal status no step is enabled (`10_state.md` R29, `40_execution_cycle.md` R128). -/
theorem step_ne_next_of_not_running {s : State} (hs : s.status ≠ .running) (u : State) : step s ≠ .next u :=
  fun h => hs (step_cases h).1

section
variable {s : State} {b : RegIdx} (a c : RegIdx)

theorem exec_loadprog_of_eq_zero (h0 : s.reg b = 0) : exec (.loadprog a b c) s = .next (s.advance.setPc (s.reg c)) := by
  simp only [exec, execLoadprog, if_pos h0]

theorem exec_loadprog_of_copy {m : Memory} (h0 : s.reg b ≠ 0) (hm : s.mem.copyTo0 (s.reg b) = some m)
    (hfits : storageFits s.params m = true) :
    exec (.loadprog a b c) s = .next ((s.advance.setMem m).setPc (s.reg c)) := by
  simp only [exec, execLoadprog, if_neg h0, hm, if_pos hfits]

theorem exec_loadprog_of_copy_none (h0 : s.reg b ≠ 0) (hm : s.mem.copyTo0 (s.reg b) = none) :
    exec (.loadprog a b c) s = .next (s.dispatchFault .outOfBoundsAccess) := by
  simp only [exec, execLoadprog, if_neg h0, hm]

end

/-! ## The statements -/

/-- Settles O33, by the branches of LOADPROG; the premise on storage shuts out the exhausted one, `exec_loadprog_exhausted`. -/
theorem loadProgramJumpsOrSwaps : Obligations.LoadProgramJumpsOrSwaps := by
  unfold Obligations.LoadProgramJumpsOrSwaps
  intro a b c s
  refine ⟨fun h0 => ?jumps, fun n h0 hlen hfits => ?swaps, fun h0 hfree => ?faults⟩
  case jumps =>
    exact ⟨_, exec_loadprog_of_eq_zero a c h0, by simp, fun r => by simp, sameMemory_of_mem_eq (by simp), by simp [SameIo],
      by simp [SameControl]⟩
  case swaps =>
    obtain ⟨m, hm⟩ := copyTo0_of_lenOf hlen
    obtain ⟨⟨p, hsrc, hzero⟩, hother⟩ := copyTo0_arrayAt hm
    obtain ⟨hlen0, hread⟩ := read_eq_of_arrayAt_eq (hzero.trans hsrc.symm)
    exact ⟨_, exec_loadprog_of_copy a c h0 hm (hfits m hm), by simp, hlen0.trans hlen, hread,
      fun j hj => sameArray_of_arrayAt_eq (hother j hj), fun r => by simp, by simp [SameIo], by simp [SameControl]⟩
  case faults =>
    exact ⟨_, exec_loadprog_of_copy_none a c h0 (copyTo0_of_not_allocated hfree), dispatchFault_faultedWith _ _⟩

/-- Settles O35: CMOV leaves the zero register and puts the target in `x[e]`, and the jump to it changes only the finger. -/
theorem cmovThenLoadProgramBranches : Obligations.CmovThenLoadProgramBranches := by
  unfold Obligations.CmovThenLoadProgramBranches
  intro e f k z a s hz hze
  obtain ⟨-, t, hcmov, ⟨hregs, -, hmem, hio, hctl⟩, hmoved, hkept⟩ := cmovMovesWhenConditionNonzero e f k s
  have htz : t.reg z = 0 := (hregs z hze).trans hz
  refine ⟨t, _, hcmov, exec_loadprog_of_eq_zero a e htz, ?target, hmem, hio, hregs, hctl⟩
  case target =>
    rw [setPc_pc]
    split
    next hk => exact hkept hk
    next hk => exact hmoved hk

/-- Settles O32. -/
theorem haltEndsRun : Obligations.HaltEndsRun := by
  unfold Obligations.HaltEndsRun
  intro a b c s
  exact ⟨by decide, _, exec_halt a b c s, by simp, by simp, fun r => by simp, sameMemory_of_mem_eq (by simp),
    by simp [SameIo], by simp, by simp, by simp, step_ne_next_of_not_running (by simp)⟩

end Sys2Proof.Machine

/-! PROOFS. The statement of `60_exceptions.md`. A step ends Faulted only by fault entry, from one of three places; what fault entry
leaves alone is `takeFault_faultedWith`, and the place says where the finger is. -/

namespace Sys2Proof.Machine

open Sys2Proof

/-! ## The places a fault comes from -/

/-- `FaultPlace s k p t`: `t` is fault entry from `s` with kind `k` and the finger left at `p`, one constructor for each place that
raises a fault (`60_exceptions.md` R208). -/
inductive FaultPlace (s : State) : FaultKind → Word → State → Prop where
  | fetch (hf : s.fetch = none) : FaultPlace s .outOfBoundsAccess s.pc (s.takeFault .outOfBoundsAccess s.pc)
  | decode (w : Word) (hf : s.fetch = some w) : FaultPlace s .decodeError s.pc (s.takeFault .decodeError s.pc)
  | dispatch (w : Word) (hf : s.fetch = some w) (k : FaultKind) (hk : k ≠ .decodeError) :
      FaultPlace s k (s.pc + 1) (s.takeFault k (s.pc + 1))

/-- An instruction that leaves a Running machine Faulted has raised a fault; every operation that completes keeps status Running or
sets Halted. -/
theorem ExecEffect.exists_faultPlace {s t : State} {i : Instr} {w : Word} (h : ExecEffect s i t) (hf : s.fetch = some w)
    (hs : s.status = .running) (ht : t.status = .faulted) : ∃ k p, FaultPlace s k p t := by
  cases h with
  | fault k hk => exact ⟨k, _, .dispatch w hf k hk⟩
  | illegal hi => exact ⟨_, _, .decode w hf⟩
  | _ => simp [hs] at ht

theorem step_exists_faultPlace {s t : State} (hs : s.status = .running) (h : step s = .next t) (ht : t.status = .faulted) :
    ∃ k p, FaultPlace s k p t := by
  rcases step_effect h with ⟨hf, rfl⟩ | ⟨w, hf, he⟩
  · exact ⟨_, _, .fetch hf⟩
  · exact he.exists_faultPlace hf hs ht

namespace FaultPlace

variable {s t : State} {k : FaultKind} {p : Word}

theorem eq_takeFault (h : FaultPlace s k p t) : t = s.takeFault k p := by
  cases h <;> rfl

/-- A fault of fetch or decode comes before the finger's advance (`60_exceptions.md` R208). -/
theorem place_eq_pc (h : FaultPlace s k p t) (hearly : s.fetch.isSome = false ∨ k = .decodeError) : p = s.pc := by
  cases h with
  | fetch hf => rfl
  | decode w hf => rfl
  | dispatch w hf k hk => simp [hf, hk] at hearly

/-- A fault of dispatch comes after the finger's advance (`60_exceptions.md` R208). -/
theorem place_eq_succ (h : FaultPlace s k p t) (hlate : s.fetch.isSome = true ∧ k ≠ .decodeError) : p = s.pc + 1 := by
  cases h with
  | fetch hf => simp [hf] at hlate
  | decode w hf => exact absurd rfl hlate.2
  | dispatch w hf k hk => rfl

end FaultPlace

/-! ## The statement -/

/-- Settles O9: the step is fault entry from one of the places, whose frame is `FaultedWith` and whose place fixes the finger. -/
theorem faultsArePrecise : Obligations.FaultsArePrecise := by
  unfold Obligations.FaultsArePrecise
  intro s t hs h ht
  obtain ⟨k, p, hplace⟩ := step_exists_faultPlace hs h ht
  obtain rfl := hplace.eq_takeFault
  obtain ⟨-, hkind, hdiagPc, hpc, hregs, hmem, hio, hparams⟩ := takeFault_faultedWith s k p
  rw [takeFault_hasInsn, hkind, hdiagPc, hpc]
  exact ⟨hregs, hmem, hio, hparams, rfl, rfl, hplace.place_eq_pc, hplace.place_eq_succ⟩

end Sys2Proof.Machine

/-! PROOFS. What the instruction word decides (`30_encoding.md`) and what every step does or leaves (`40_execution_cycle.md`,
`45_io.md`, `60_exceptions.md`): each statement about a step is read off a lemma over the cases of `ExecEffect`. -/

namespace Sys2Proof.Machine

open Sys2Proof

/-! ## Fields of a platter -/

theorem fieldC_toNat (w : Word) : (fieldC w).toNat = w.toNat % 8 := by
  simp [fieldC, BitVec.extractLsb'_toNat]

theorem fieldB_toNat (w : Word) : (fieldB w).toNat = w.toNat / 8 % 8 := by
  simp [fieldB, BitVec.extractLsb'_toNat, Nat.shiftRight_eq_div_pow]

theorem fieldA_toNat (w : Word) : (fieldA w).toNat = w.toNat / 64 % 8 := by
  simp [fieldA, BitVec.extractLsb'_toNat, Nat.shiftRight_eq_div_pow]

theorem opcode_of_decode_eq {w : Word} {i : Instr} (h : decode w = i) : w.toNat / 2 ^ 28 = i.opcode.toNat := by
  rw [← h, decode_opcode_toNat]

/-- In the regular format `diag.A` is bits 8:6 (`10_state.md` R30). -/
theorem diagFieldA_of_regular {w : Word} (h : w.toNat / 2 ^ 28 ≤ 12) : diagFieldA w = fieldA w := by
  have hne : opField w ≠ 13 := by
    intro hop
    rw [← opField_toNat, hop] at h
    exact absurd h (by decide)
  rw [diagFieldA, if_neg hne]

/-- Platters that agree outside bits 27:9 have the same opcode. -/
theorem opField_eq_of_and_eq {w v : Word} (h : w &&& 0xF00001FF = v &&& 0xF00001FF) : opField w = opField v := by
  rw [← encRegular_fields w, ← encRegular_fields v] at h
  simpa using congrArg opField h

/-- Regular platters that agree outside bits 27:9 decode alike, as they have the same canonical platter. -/
theorem decode_eq_of_and_eq {w v : Word} (hw : w.toNat / 2 ^ 28 ≤ 12) (h : w &&& 0xF00001FF = v &&& 0xF00001FF) :
    decode w = decode v := by
  have hv : v.toNat / 2 ^ 28 ≤ 12 := by rwa [← opField_toNat, ← opField_eq_of_and_eq h, opField_toNat]
  calc decode w = decode (encode (decode w)) := (decode_encode _).symm
    _ = decode (encode (decode v)) := by rw [encode_decode hw, encode_decode hv, h]
    _ = decode v := decode_encode _

theorem decode_wellFormed_of_regular {w : Word} (h : w.toNat / 2 ^ 28 ≤ 12) : (decode w).wellFormed = true := by
  rw [← Bool.not_eq_false, wellFormed_eq_false_iff, decode_opcode_toNat]
  omega

/-! ## The diagnostic -/

/-- A fault of a step that fetched a platter is fault entry with that platter recorded (`10_state.md` R30). -/
theorem step_fault_insn {s t : State} {w : Word} (hs : s.status = .running) (hf : s.fetch = some w)
    (h : step s = .next t) (ht : t.status = .faulted) :
    t.diag.hasInsn = true ∧ t.diag.insn = insnRecordOf w s.regs := by
  obtain ⟨k, p, hplace⟩ := step_exists_faultPlace hs h ht
  obtain rfl := hplace.eq_takeFault
  exact ⟨by simp [hf], takeFault_insn s k p w hf⟩

/-! ## What an instruction leaves alone -/

namespace ExecEffect

variable {i : Instr} {s t : State}

/-- Only OUT adds to the trace or takes an answer of the output boundary (`45_io.md` R182). -/
theorem output_eq_or_emitted (h : ExecEffect s i t) :
    (t.trace = s.trace ∧ t.outAnswers = s.outAnswers) ∨
      ∃ a b c, i = .out a b c ∧ (s.reg c).toNat ≤ 255 ∧ t.trace = s.trace ++ [(s.reg c).extractLsb' 0 8] := by
  cases h with
  | emitted a b c hc hacc => exact .inr ⟨a, b, c, rfl, hc, rfl⟩
  | _ => exact .inl (by simp)

/-- Only IN takes an answer of the input boundary (`45_io.md` R183), and the source is then what `IoRead` left. -/
theorem input_eq_or_delivered (h : ExecEffect s i t) :
    t.input = s.input ∨ (i.opcode.toNat = 11 ∧
      ((∃ e, s.input.take = .byte e t.input) ∨ s.input.take = .endOfInput t.input)) := by
  cases h with
  | delivered a b c rest v htake =>
    exact .inr ⟨rfl, by simpa using htake.imp (fun ⟨e, he, _⟩ => ⟨e, he⟩) And.left⟩
  | _ => exact .inl (by simp)

/-- Only AMEND, ALLOC, ABANDON and LOADPROG's copy change the heap (`20_memory.md`). -/
theorem mem_eq_or_heapOperation (h : ExecEffect s i t) :
    t.mem = s.mem ∨ i.opcode.toNat ∈ [2, 8, 9] ∨ ∃ a b c, i = .loadprog a b c ∧ s.reg b ≠ 0 := by
  cases h with
  | amended | allocated | abandoned => exact .inr (.inl (by simp [Instr.opcode]))
  | loaded a b c m h0 hm hfits => exact .inr (.inr ⟨a, b, c, rfl, h0⟩)
  | _ => exact .inl (by simp)

end ExecEffect

/-! ## End of input -/

theorem ended_iff (src : InputSource) :
    src.ended = true ↔ (∀ x ∈ src.answers, x.isByte = false) ∧ src.tail = .exhausted := by
  simp [InputSource.ended]

/-- Once a source that R187 allows has answered end of input, it has ended (`92_eei_decisions.md` D12). -/
theorem ended_of_take_end {src rest : InputSource} (hwf : src.wf = true) (h : src.take = .endOfInput rest) :
    rest.ended = true := by
  rcases take_cases src with ⟨b, l, -, ht⟩ | ⟨l, hl, ht⟩ | ⟨l, -, ht⟩ | ⟨hl, htail, ht⟩ | ⟨-, -, ht⟩ | ⟨n, k, -, -, ht⟩
  · cases ht.symm.trans h
  · cases ht.symm.trans h
    simpa [InputSource.wf, InputSource.ended, answersOk, hl] using hwf
  · cases ht.symm.trans h
  · cases ht.symm.trans h
    simp [ended_iff, hl, htail]
  · cases ht.symm.trans h
  · cases ht.symm.trans h

/-- An ended source answers end of input and stays ended, or fails and is left as it was. -/
theorem take_of_ended {src : InputSource} (h : src.ended = true) :
    (∃ rest, rest.ended = true ∧ src.take = .endOfInput rest) ∨ src.take = .failed := by
  obtain ⟨hbytes, htail⟩ := (ended_iff src).1 h
  have hleft : InputSource.ended { src with answers := src.answers.tail } = true :=
    (ended_iff _).2 ⟨fun x hx => hbytes x (List.mem_of_mem_tail hx), htail⟩
  cases hl : src.answers with
  | nil => exact .inl ⟨_, hleft, take_of_end (.inr ⟨hl, htail⟩)⟩
  | cons x l =>
    cases x with
    | byte b => cases hbytes (.byte b) (by simp [hl])
    | endOfInput => exact .inl ⟨_, hleft, take_of_end (by simp [hl])⟩
    | failed => exact .inr (take_of_failed (by simp [hl]))

theorem ExecEffect.input_ended {i : Instr} {s t : State} (h : ExecEffect s i t) (hs : s.input.ended = true) :
    t.input.ended = true := by
  rcases h.input_eq_or_delivered with heq | ⟨-, htake⟩
  · rwa [heq]
  · rcases take_of_ended hs with ⟨rest, hrest, hend⟩ | hfailed
    · rw [hend] at htake
      obtain rfl : rest = t.input := by simpa using htake
      exact hrest
    · simp [hfailed] at htake

/-! ## Placing a word -/

/-- What `plant` puts at an offset that an array can have is read there (log entry 16). -/
theorem plant_read {off : Word} (m : Memory) (w : Word) (h : off ≠ 0xFFFFFFFF) :
    (m.plant off w).read 0 off = some w := by
  have hlt : off < off + 1 := by bv_omega
  refine (read_eq_some _ _ _ _).2 ⟨_, arrayAt_put_self m 0 _, ?_, set_get_self _ _ _⟩
  rw [set_len]
  split
  · assumption
  · exact hlt

/-- The finger that `withFetchWord` leaves is one that an array can hold (log entry 16). -/
theorem withFetchWord_fetch (s : State) (nbits w : Nat) :
    (s.withFetchWord nbits w).fetch = some (BitVec.ofNat 32 (w % 2 ^ nbits)) := by
  refine plant_read _ _ ?_
  split
  · exact (by decide : (0 : Word) ≠ 0xFFFFFFFF)
  · assumption

theorem withFetchWord_status (s : State) (nbits w : Nat) : (s.withFetchWord nbits w).status = .running := rfl

/-! ## The statements -/

/-- Settles O2: for the first part a regular platter decodes by its canonical form; for the second no ignored field stands in
the operation's meaning. -/
theorem unusedBitsHaveNoEffect : Obligations.UnusedBitsHaveNoEffect := by
  unfold Obligations.UnusedBitsHaveNoEffect
  refine ⟨fun w v hw h => ⟨decode_eq_of_and_eq hw h, decode_wellFormed_of_regular hw⟩, ?ignored⟩
  case ignored =>
    intro a b c a' b' c' s
    exact ⟨rfl, rfl, rfl, rfl, rfl, rfl⟩

/-- Settles O10. -/
theorem diagnosticRecordsFetchedPlatter : Obligations.DiagnosticRecordsFetchedPlatter := by
  unfold Obligations.DiagnosticRecordsFetchedPlatter
  intro s t w hs hf h ht
  obtain ⟨hhas, hinsn⟩ := step_fault_insn hs hf h ht
  rw [hinsn]
  refine ⟨hhas, rfl, opField_toNat w, fun _ => ⟨fieldC_toNat w, rfl⟩, fun _ => ⟨fieldB_toNat w, rfl⟩, fun hop => ⟨?_, rfl⟩⟩
  have hregular : w.toNat / 2 ^ 28 ≤ 12 := by
    simp only [List.mem_cons, List.not_mem_nil, or_false] at hop
    omega
  exact (congrArg BitVec.toNat (diagFieldA_of_regular hregular)).trans (fieldA_toNat w)

/-- Settles O12: a fetch fault touches neither boundary, and of the instructions only OUT and IN do. -/
theorem onlyIoOperationsTouchBoundary : Obligations.OnlyIoOperationsTouchBoundary := by
  unfold Obligations.OnlyIoOperationsTouchBoundary
  intro s t _ h
  rcases step_effect h with ⟨-, rfl⟩ | ⟨w, hf, he⟩
  · exact ⟨.inl (by simp), .inl (by simp)⟩
  · refine ⟨he.output_eq_or_emitted.imp_right ?out, he.input_eq_or_delivered.imp_right ?inp⟩
    case out =>
      rintro ⟨a, b, c, hi, hc, htrace⟩
      obtain ⟨-, -, rfl⟩ := decode_regularFields (congrArg instrRegularFields hi)
      exact ⟨w, hf, opcode_of_decode_eq hi, hc, htrace⟩
    case inp =>
      rintro ⟨hop, -⟩
      exact ⟨w, hf, (decode_opcode_toNat w).symm.trans hop⟩

/-- Settles O13. -/
theorem onlyHeapOperationsChangeHeap : Obligations.OnlyHeapOperationsChangeHeap := by
  unfold Obligations.OnlyHeapOperationsChangeHeap
  intro s t _ h
  rcases step_effect h with ⟨-, rfl⟩ | ⟨w, hf, he⟩
  · exact .inl (sameMemory_of_mem_eq (by simp))
  · refine he.mem_eq_or_heapOperation.imp sameMemory_of_mem_eq fun hop => ⟨w, hf, hop.imp ?always ?copy⟩
    case always => exact fun hmem => decode_opcode_toNat w ▸ hmem
    case copy =>
      rintro ⟨a, b, c, hi, h0⟩
      obtain ⟨-, rfl, -⟩ := decode_regularFields (congrArg instrRegularFields hi)
      exact ⟨opcode_of_decode_eq hi, h0⟩

/-- Settles O31. -/
theorem endOfInputStays : Obligations.EndOfInputStays := by
  unfold Obligations.EndOfInputStays
  refine ⟨fun src rest hwf h => ended_of_take_end hwf h, fun s t hs h => ?kept, fun a b c s hs => ?read⟩
  case kept =>
    rcases step_effect h with ⟨-, rfl⟩ | ⟨w, -, he⟩
    · simpa using hs
    · exact he.input_ended hs
  case read =>
    rcases take_of_ended hs with ⟨rest, -, hend⟩ | hfailed
    · exact ⟨_, exec_inp_of_end a b c hend, .inr (by rw [setReg_reg_self]; rfl)⟩
    · exact ⟨_, exec_inp_of_failed a b c hfailed, .inl (by simp)⟩

/-- Settles O48. -/
theorem placedWordIsFetchedNext : Obligations.PlacedWordIsFetchedNext := by
  unfold Obligations.PlacedWordIsFetchedNext
  intro s nbits w
  have hfetch := withFetchWord_fetch s nbits w
  exact ⟨hfetch, step_of_fetch (withFetchWord_status s nbits w) hfetch⟩

/-- Settles O4, by evaluating the decoder. -/
theorem sampleWordsDecode : Obligations.SampleWordsDecode := by
  unfold Obligations.SampleWordsDecode
  decide

/-- Settles O6: with the finger at or beyond the end of array 0 the arbiter answers `bad` to the fetch. -/
theorem fetchPastEndFaults : Obligations.FetchPastEndFaults := by
  unfold Obligations.FetchPastEndFaults
  intro s n hs hlen hle
  have hfetch : s.fetch = none := (read_eq_none _ _ _).2 (len_le_of_outOfBounds (.inr ⟨n, hlen, hle⟩))
  exact ⟨_, step_of_fetch_none hs hfetch, takeFault_faultedWith s _ s.pc, by simp [hfetch]⟩

/-- Settles O37. -/
theorem statusAndFaultCodes : Obligations.StatusAndFaultCodes := by
  unfold Obligations.StatusAndFaultCodes
  decide

end Sys2Proof.Machine

/-! PROOFS. The statements of `70_reset_and_hazards.md`. A scroll's word is described as a number, byte by byte, or bit by bit, and
the sequence of words by induction along the file; program load is read off `load_eq_some`. -/

namespace Sys2Proof.Machine

open Sys2Proof

/-! ## The scroll encodings -/

/-- The first byte is the most significant (`70_reset_and_hazards.md` R244). -/
theorem wordOfBytes_toNat (b0 b1 b2 b3 : Byte) :
    (wordOfBytes b0 b1 b2 b3).toNat = b0.toNat * 2 ^ 24 + b1.toNat * 2 ^ 16 + b2.toNat * 2 ^ 8 + b3.toNat := by
  simp only [wordOfBytes, toNat_append_eq_add]
  omega

theorem textLineValue_append_singleton (chars : List Char) (ch : Char) :
    textLineValue (chars ++ [ch]) = 2 * textLineValue chars + (ch == '1').toNat := by
  by_cases h : ch = '1' <;> simp [textLineValue, h]

/-- The last character of a line is bit 0 of its value (`70_reset_and_hazards.md` R245). -/
theorem textLineValue_testBit (chars : List Char) (j : Nat) :
    (textLineValue chars).testBit j = (chars.reverse[j]? == some '1') := by
  induction chars using List.reverseRecOn generalizing j with
  | nil => simp [textLineValue]
  | append_singleton chars ch ih =>
    rw [textLineValue_append_singleton, List.reverse_concat]
    cases j with
    | zero => cases h : ch == '1' <;> simp_all [Nat.testBit_zero]
    | succ j =>
      have hdiv : (2 * textLineValue chars + (ch == '1').toNat) / 2 = textLineValue chars := by
        have hbit := Bool.toNat_lt (ch == '1')
        omega
      rw [Nat.testBit_succ, hdiv, ih, List.getElem?_cons_succ]

theorem length_of_textLineOk {chars : List Char} (h : textLineOk chars = true) : chars.length = 32 := by
  simp only [textLineOk, Bool.and_eq_true, beq_iff_eq] at h
  exact h.1

/-- Character `k` of a line is bit `31 - k` of its word (`70_reset_and_hazards.md` R245). -/
theorem textLineWord_getLsbD {chars : List Char} {k : Nat} (hlen : chars.length = 32) (hk : k < chars.length) :
    (BitVec.ofNat 32 (textLineValue chars)).getLsbD (31 - k) = (chars[k] == '1') := by
  have hrev : chars.reverse[31 - k]? = some chars[k] := by
    rw [List.getElem?_reverse (by omega), List.getElem?_eq_getElem (by omega)]
    congr 2
    omega
  have hlt : 31 - k < 32 := by omega
  rw [BitVec.getLsbD_ofNat, textLineValue_testBit, hrev]
  simp [hlt]

theorem textScroll_cons {chars : List Char} (rest : List (List Char)) (h : textLineOk chars = true) :
    textScroll (chars :: rest) = (textScroll rest).map (fun ws => BitVec.ofNat 32 (textLineValue chars) :: ws) := by
  simp [textScroll, h]

/-! ## Reset with a program -/

/-- Reset with the empty program is the model's reset state (log entry 6). -/
theorem load_nil : State.load [] State.reset.input [] Config.defaultParams = some State.reset := rfl

theorem load_storageFits {program : List Word} {input : InputSource} {outAnswers : List OutputAnswer} {params : Params}
    {s : State} (h : State.load program input outAnswers params = some s)
    (hmost : ∀ most : Nat, params.heapWordsMax = some most → program.length ≤ most) :
    storageFits params s.mem = true := by
  unfold storageFits
  split
  next => rfl
  next most hmax =>
    rw [load_totalWords h]
    exact decide_eq_true (hmost most hmax)

/-! ## The statements -/

/-- Settles O41, by induction along the file, four bytes at a time. -/
theorem binaryScrollIsBigEndian : Obligations.BinaryScrollIsBigEndian := by
  unfold Obligations.BinaryScrollIsBigEndian
  intro bytes hlen
  induction bytes using binaryScroll.induct with
  | case1 => exact ⟨[], rfl, rfl, fun k h => absurd h (Nat.not_lt_zero k)⟩
  | case2 b0 b1 b2 b3 rest ih =>
    obtain ⟨ws, hws, hlen', hword⟩ := ih (by simp only [List.length_cons] at hlen; omega)
    refine ⟨wordOfBytes b0 b1 b2 b3 :: ws, by simp [binaryScroll, hws], by simp only [List.length_cons]; omega, ?_⟩
    intro k h h0
    cases k with
    | zero => exact wordOfBytes_toNat b0 b1 b2 b3
    | succ k => exact hword k (Nat.lt_of_succ_lt_succ h) (by simp only [List.length_cons] at h0; omega)
  | case3 bytes hnil hfour =>
    -- The lists of one to three bytes contradict `hlen`.
    match bytes, hlen with
    | [], _ => exact absurd rfl hnil
    | b0 :: b1 :: b2 :: b3 :: rest, _ => exact absurd rfl (hfour b0 b1 b2 b3 rest)

/-- Settles O42, by induction on the lines. -/
theorem textScrollIsMostSignificantFirst : Obligations.TextScrollIsMostSignificantFirst := by
  unfold Obligations.TextScrollIsMostSignificantFirst
  refine ⟨fun lines hok => ?words, ?sample⟩
  case words =>
    induction lines with
    | nil => exact ⟨[], rfl, rfl, fun i k h => absurd h (Nat.not_lt_zero i)⟩
    | cons chars rest ih =>
      obtain ⟨hline, hrest⟩ := List.forall_mem_cons.1 hok
      obtain ⟨ws, hws, hlen, hbit⟩ := ih hrest
      refine ⟨BitVec.ofNat 32 (textLineValue chars) :: ws, by simp [textScroll_cons rest hline, hws], by simp [hlen], ?_⟩
      intro i k h h' hk
      cases i with
      | zero => exact textLineWord_getLsbD (length_of_textLineOk hline) hk
      | succ i => exact hbit i k (Nat.lt_of_succ_lt_succ h) (Nat.lt_of_succ_lt_succ h') hk
  case sample => decide

/-- Settles O38: array 0 is the program's words, and the other fields are those of `State.reset` or as given. -/
theorem loadLeavesResetState : Obligations.LoadLeavesResetState := by
  unfold Obligations.LoadLeavesResetState
  intro program input outAnswers params hlen
  have hload := (load_eq_some program input outAnswers params _).2 ⟨hlen, rfl⟩
  have harray := onlyArray0_arrayAt (PlatterArray.ofWords program) 0
  rw [if_pos rfl] at harray
  refine ⟨_, hload, fun r => ?regs, rfl, rfl, ⟨_, (lenOf_eq_some _ _ _).2 ⟨_, harray, rfl⟩, ofWords_len program hlen⟩,
    fun k hk => ?platters, load_onlyArray0 hload, rfl, rfl, rfl, rfl⟩
  case regs => simp [State.reg, regRead, State.reset]
  case platters =>
    have hk' : (BitVec.ofNat 32 k).toNat = k := by
      rw [BitVec.toNat_ofNat]
      omega
    refine (read_eq_some _ _ _ _).2 ⟨_, harray, ?below, ?value⟩
    case below => rwa [BitVec.lt_def, hk', ofWords_len program hlen]
    case value => rw [hk', ofWords_get program k hk]

/-- Settles O44. -/
theorem loadEstablishesInvariant : Obligations.LoadEstablishesInvariant := by
  unfold Obligations.LoadEstablishesInvariant
  intro program input outAnswers params s h hinput hmost
  have hfits := load_storageFits h hmost
  have hwf := load_mem_wf h
  have harray0 := (load_onlyArray0 h 0).2 rfl
  obtain ⟨-, rfl⟩ := (load_eq_some _ _ _ _ _).1 h
  exact ⟨hwf, harray0, hinput, hfits⟩

/-- Settles O40: array 0 has length 0, so the first fetch is past its end. -/
theorem emptyProgramFaultsAtFirstFetch : Obligations.EmptyProgramFaultsAtFirstFetch := by
  unfold Obligations.EmptyProgramFaultsAtFirstFetch
  exact ⟨load_nil, fetchPastEndFaults State.reset 0 rfl rfl (by decide)⟩

/-- Settles O43, as the case of the empty program. -/
theorem resetSatisfiesInvariant : Obligations.ResetSatisfiesInvariant := by
  unfold Obligations.ResetSatisfiesInvariant
  exact loadEstablishesInvariant [] State.reset.input [] Config.defaultParams State.reset load_nil (by decide)
    fun most h => by cases h

end Sys2Proof.Machine
